-- ==== Sys2Proof/Word.lean ====
section
/-! DEFINITION. The word types of TDEC: the byte of FRAME, the raw 16-bit pixel word, and the 64-bit pattern of a
binary64 value (spec/00_scope.md R5, R9; spec/20_memory.md R30). -/

namespace Sys2Proof

/-- One byte of the FRAME space (R30). -/
abbrev Byte := BitVec 8

/-- One raw pixel word as it stands in a frame, before it is read as a signed number (R51). -/
abbrev RawWord := BitVec 16

/-- The bit pattern of one binary64 value: sign bit 63, exponent bits 62 to 52, fraction bits 51 to 0 (R9). -/
abbrev F64 := BitVec 64

end Sys2Proof
end

