-- ==== Sys2Proof/Machine/Memory.lean ====
section
/-! DEFINITION. The FRAME space as plain data: a list of (address, byte) cells in one canonical form (addresses strictly
rising, no cell equal to what an unlisted address reads as), with the one read, the one write and the primitive
`MemRead` of spec/00_scope.md R8. -/

namespace Sys2Proof.Machine

/-- Byte memory: the cells that differ from the unlisted byte, addresses rising. -/
abbrev Memory := List Host.Cell

/-- What an address that is not listed reads as. DESIGN CHOICE (log 3), unsafe: the host fills FRAME before every start
(R19, R142), and the spec gives the buffer no contents before that. -/
def unlistedByte : Byte := 0

/-- `FRAME[a]` of R8. -/
def Memory.read (m : Memory) (a : Nat) : Byte := (m.lookup a).getD unlistedByte

/-- The cells that hold `bytes` from address `a` on. -/
def Memory.cells : Nat → List Byte → Memory
  | _, [] => []
  | a, b :: rest => if b = unlistedByte then Memory.cells (a + 1) rest else (a, b) :: Memory.cells (a + 1) rest

/-- Writing `bytes` at `a`, `a + 1`, …: the cells below, the new bytes, the cells above. -/
def Memory.writeBytes (m : Memory) (a : Nat) (bytes : List Byte) : Memory :=
  m.filter (fun c => decide (c.1 < a)) ++ Memory.cells a bytes
    ++ m.filter (fun c => decide (a + bytes.length ≤ c.1))

/-- Writing one byte. -/
def Memory.write (m : Memory) (a : Nat) (b : Byte) : Memory := m.writeBytes a [b]

/-- The canonical form, for cells at or above address `lo`. -/
def Memory.wfFrom : Nat → Memory → Bool
  | _, [] => true
  | lo, (a, b) :: rest => decide (lo ≤ a) && decide (b ≠ unlistedByte) && Memory.wfFrom (a + 1) rest

/-- The canonical form: addresses strictly rising, no cell equal to the unlisted byte. -/
def Memory.wf (m : Memory) : Bool := Memory.wfFrom 0 m

/-- Every listed address lies below `n`. -/
def Memory.within (n : Nat) (m : Memory) : Bool := m.all (fun c => decide (c.1 < n))

/-- `MemRead(a, n)` of R8: `n` bytes from address `a`, little-endian, as an unsigned number (R34). -/
def memRead (m : Memory) (a : Nat) : Nat → Nat
  | 0 => 0
  | n + 1 => (m.read a).toNat + 256 * memRead m (a + 1) n

/-- `n` bytes of the number `v`, least significant first. -/
def leBytes : Nat → Nat → List Byte
  | 0, _ => []
  | n + 1, v => BitVec.ofNat 8 v :: leBytes n (v / 256)

/-- `zext_N(v)` of R7. -/
def zext (v : Nat) : Int := (v : Int)

/-- `sext_N(v)` of R7: an `N`-bit pattern read as two's complement. -/
def sext (bits v : Nat) : Int := if v < 2 ^ (bits - 1) then (v : Int) else (v : Int) - 2 ^ bits

end Sys2Proof.Machine
end

