-- ==== Sys2Proof/Config.lean ====
section
/-! DEFINITION. What one TDEC fixes: the configuration record of spec/00_scope.md R5 and R6 with this hardware as its
default value, and the free values of the model (constants without a body, so that no proof can see what they are). -/

namespace Sys2Proof.Config

/-- The parameters of R5 and the constants of R6, in the one record R5 asks for (decision D19), with the open
alternative of decision D25 (`pixelSigned`). -/
structure Params where
  /-- `CHUNK_BYTES`: bytes in one bulk read. -/
  chunkBytes : Nat
  /-- `N_CHUNKS`: bulk reads per frame. -/
  nChunks : Nat
  /-- `ROWS_RAW`: rows of the raw grid. -/
  rowsRaw : Nat
  /-- `COLS_RAW`: columns of the raw grid. -/
  colsRaw : Nat
  /-- `CROP_ROWS`: rows dropped at the bottom. -/
  cropRows : Nat
  /-- `CROP_COLS`: columns dropped at the right. -/
  cropCols : Nat
  /-- `STATUS_OFFSET`: byte offset of the status byte. -/
  statusOffset : Nat
  /-- `STATUS_CAL`: status value of a calibration frame. -/
  statusCal : Byte
  /-- `STATUS_NORM`: status value of a live frame. -/
  statusNorm : Byte
  /-- `PIXEL_BITS`: width of a raw pixel. -/
  pixelBits : Nat
  /-- Decision D25: raw pixels are two's complement (true, this hardware) or unsigned. -/
  pixelSigned : Bool
  /-- `K_GAIN` of R6, the binary64 nearest 0.0179. -/
  kGain : F64
  /-- `K_OFFSET` of R6, 42.0. -/
  kOffset : F64
  /-- `K_DEAD` of R6, the binary64 nearest 0.3. -/
  kDead : F64
  deriving DecidableEq, Repr

/-- `FRAME_BYTES = N_CHUNKS × CHUNK_BYTES` (R5). -/
def Params.frameBytes (p : Params) : Nat := p.nChunks * p.chunkBytes

/-- Bytes of one raw pixel. -/
def Params.pixelBytes (p : Params) : Nat := p.pixelBits / 8

/-- `N_RAW = ROWS_RAW × COLS_RAW` (R5). -/
def Params.nRaw (p : Params) : Nat := p.rowsRaw * p.colsRaw

/-- `ROWS = ROWS_RAW − CROP_ROWS` (R5). -/
def Params.rows (p : Params) : Nat := p.rowsRaw - p.cropRows

/-- `COLS = COLS_RAW − CROP_COLS` (R5). -/
def Params.cols (p : Params) : Nat := p.colsRaw - p.cropCols

/-- `N_PIX = ROWS × COLS` (R5). -/
def Params.nPix (p : Params) : Nat := p.rows * p.cols

/-- This hardware (the value columns of R5 and R6). -/
def tdec : Params where
  chunkBytes := 0x3F60
  nChunks := 4
  rowsRaw := 156
  colsRaw := 208
  cropRows := 1
  cropCols := 2
  statusOffset := 20
  statusCal := 1
  statusNorm := 3
  pixelBits := 16
  pixelSigned := true
  kGain := 0x3F925460AA64C2F8
  kOffset := 0x4045000000000000
  kDead := 0x3FD3333333333333

/-- The four arithmetic operations of R8 (names for the free value below). -/
inductive FloatOp where
  | sub | mul | add | div
  deriving DecidableEq, Repr

/-- FREE VALUE (log 11). The result of an arithmetic operation on an operand that is a NaN or an infinity, or of a
division by zero: R9 says that no operation of TDEC meets one, and R8 gives the operations on exact values only. -/
opaque nonFiniteResult : FloatOp → F64 → F64 → F64

/-- FREE VALUE (log 11). The answer of `flt` when an operand is a NaN or an infinity. -/
opaque nonFiniteLess : F64 → F64 → Bool

/-- FREE VALUE (log 5). What an element of CAL reads as while the store has no value (R16: "Reset value of the
elements: unspecified"), by linear index. No rule reads it while `CAL_VALID = 0`. -/
opaque unspecifiedCal : Nat → F64

/-- FREE VALUE (log 6). The same for a bit of DEAD (R18). -/
opaque unspecifiedDead : Nat → Bool

/-- FREE VALUE (log 7). What the host reads from an output whose contents the spec leaves at "any value" (the TMAP
buffer without a valid map, U8; the outcome port between reset and the first `done`, U7): the n-th such read of a run
gets the n-th value. -/
opaque anyValue : Nat → F64

end Sys2Proof.Config
end

