-- ==== Sys2Proof/Syntax.lean ====
section
/-! DEFINITION. The operations of TDEC, one constructor per row of spec/opcode_table.json (spec/30_encoding.md R57),
and the textual frame notation of R59 to R61. The operand of an operation is the frame itself (R51), which stays in
the FRAME space and is read there by the meanings: only the free bits of the status field are fields of `Instr`. -/

namespace Sys2Proof

/-- One operation of TDEC. `unrecXX` is the UNREC row whose match value is XX, and `s` is the row's free bits. -/
inductive Instr where
  /-- Row `00000001`: capture a calibration frame (R75). -/
  | cal
  /-- Row `00000011`: convert a live frame (R90). -/
  | norm
  /-- Row `00000000` of UNREC (R67). -/
  | unrec00
  /-- Row `00000010` of UNREC (R67). -/
  | unrec02
  /-- Row `000001ss` of UNREC (R67). -/
  | unrec04 (s : BitVec 2)
  /-- Row `00001sss` of UNREC (R67). -/
  | unrec08 (s : BitVec 3)
  /-- Row `0001ssss` of UNREC (R67). -/
  | unrec10 (s : BitVec 4)
  /-- Row `001sssss` of UNREC (R67). -/
  | unrec20 (s : BitVec 5)
  /-- Row `01ssssss` of UNREC (R67). -/
  | unrec40 (s : BitVec 6)
  /-- Row `1sssssss` of UNREC (R67). -/
  | unrec80 (s : BitVec 7)
  deriving DecidableEq, Repr

/-- One `px(r,c)=v` of the frame notation, in raw coordinates (R59). -/
structure Px where
  row : Nat
  col : Nat
  value : RawWord
  deriving DecidableEq, Repr

/-- One frame line `FRAME status=<u8> fill=<i16> [b21=<u8>] [px(r,c)=<i16>]...` (R59). -/
structure FrameLine where
  status : Byte
  fill : RawWord
  b21 : Option Byte := none
  px : List Px := []
  deriving DecidableEq, Repr

/-- One line of a program (R60, R61): a frame under its general name or under a mnemonic, the reset event, or an
`EXPECT` comment. -/
inductive ProgramLine where
  /-- `FRAME status=… …`. -/
  | frame (l : FrameLine)
  /-- `CAL <rest>`: the frame with status 1. -/
  | cal (fill : RawWord) (b21 : Option Byte) (px : List Px)
  /-- `NORM <rest>`: the frame with status 3. -/
  | norm (fill : RawWord) (b21 : Option Byte) (px : List Px)
  /-- `UNREC status=<u8> <rest>`: a frame with another status. -/
  | unrec (status : Byte) (fill : RawWord) (b21 : Option Byte) (px : List Px)
  /-- `RESET`. -/
  | reset
  /-- `EXPECT <text>`, a comment. -/
  | expect (text : String)
  deriving DecidableEq, Repr

end Sys2Proof
end

