-- ==== Sys2Proof/WellFormed.lean ====
section
/-! DEFINITION. Well-formedness: of a parameter record (the relation column of spec/00_scope.md R5) and of the frame
notation (spec/30_encoding.md R59, R60). An `Instr` has no ill-formed term: the widths of its fields are in its type,
so every statement about instructions holds for every term. -/

namespace Sys2Proof

/-- The relations R5 asks of any value set. -/
def Config.Params.wf (p : Config.Params) : Bool :=
  p.frameBytes == 2 * p.rowsRaw * p.colsRaw
    && p.statusOffset < p.frameBytes
    && p.statusNorm != p.statusCal
    && p.cropRows ≤ p.rowsRaw
    && p.cropCols ≤ p.colsRaw
    && p.pixelBits == 16

/-- A `px` names a raw coordinate of the grid (R59). -/
def Px.wf (p : Config.Params) (x : Px) : Bool := x.row < p.rowsRaw && x.col < p.colsRaw

/-- Every `px` of a frame line names a raw coordinate (R59). -/
def FrameLine.wf (p : Config.Params) (l : FrameLine) : Bool := l.px.all (Px.wf p)

/-- A program line is well formed: its pixels are in the grid, and `UNREC` is not used with the status of CAL or NORM
(R60: "with a status other than 1 and 3"). -/
def ProgramLine.wf (p : Config.Params) : ProgramLine → Bool
  | .frame l => l.wf p
  | .cal _ _ px => px.all (Px.wf p)
  | .norm _ _ px => px.all (Px.wf p)
  | .unrec status _ _ px => status != p.statusCal && status != p.statusNorm && px.all (Px.wf p)
  | .reset => true
  | .expect _ => true

end Sys2Proof
end

