-- ==== Sys2Proof/Decode.lean ====
section
/-! DEFINITION. Decoding and encoding (spec/30_encoding.md). The opcode is the status byte, the byte of FRAME at
`STATUS_OFFSET` (R51, R66); all its eight bits take part (R52); the 256 values are shared out among the ten rows of
spec/opcode_table.json (R57). -/

namespace Sys2Proof

/-- One row of spec/opcode_table.json: its mnemonic, match value and mask over the 8-bit status field. -/
structure OpcodeRow where
  mnemonic : String
  matchBits : Byte
  maskBits : Byte
  deriving DecidableEq, Repr

/-- The ten rows of spec/opcode_table.json, in its order. -/
def opcodeRows : List OpcodeRow :=
  [ ⟨"CAL", 0x01, 0xFF⟩, ⟨"NORM", 0x03, 0xFF⟩,
    ⟨"UNREC", 0x00, 0xFF⟩, ⟨"UNREC", 0x02, 0xFF⟩, ⟨"UNREC", 0x04, 0xFC⟩, ⟨"UNREC", 0x08, 0xF8⟩,
    ⟨"UNREC", 0x10, 0xF0⟩, ⟨"UNREC", 0x20, 0xE0⟩, ⟨"UNREC", 0x40, 0xC0⟩, ⟨"UNREC", 0x80, 0x80⟩ ]

/-- A status value matches a row. -/
def OpcodeRow.selects (r : OpcodeRow) (status : Byte) : Bool := status &&& r.maskBits == r.matchBits

/-- The operation a status value selects (R57): the whole byte is compared (R52). The last UNREC row is what is left,
the values with bit 7 set. -/
def decodeStatus (b : Byte) : Instr :=
  if b = Config.tdec.statusCal then .cal
  else if b = Config.tdec.statusNorm then .norm
  else if b = 0x00#8 then .unrec00
  else if b = 0x02#8 then .unrec02
  else if b &&& 0xFC#8 = 0x04#8 then .unrec04 (b.extractLsb' 0 2)
  else if b &&& 0xF8#8 = 0x08#8 then .unrec08 (b.extractLsb' 0 3)
  else if b &&& 0xF0#8 = 0x10#8 then .unrec10 (b.extractLsb' 0 4)
  else if b &&& 0xE0#8 = 0x20#8 then .unrec20 (b.extractLsb' 0 5)
  else if b &&& 0xC0#8 = 0x40#8 then .unrec40 (b.extractLsb' 0 6)
  else .unrec80 (b.extractLsb' 0 7)

/-- The status read of R66: `s = MemRead(20, 1)`. -/
def statusOf (m : Machine.Memory) : Byte := m.read Config.tdec.statusOffset

/-- The decoder of the machine: what the FRAME space holds, as an operation (R65). FRAME has a fixed size and every
contents of it decodes (R38, R50). -/
def decode (m : Machine.Memory) : Instr := decodeStatus (statusOf m)

/-- Why a sequence of bytes is not a frame. -/
inductive DecodeError where
  /-- Not exactly `FRAME_BYTES` bytes (R50). -/
  | notOneFrame (bytes : Nat)
  deriving DecidableEq, Repr

/-- The decoder on a sequence of bytes: exactly one frame (R50), or a rejection by name. -/
def decodeBytes (bytes : List Byte) : Except DecodeError Instr :=
  if bytes.length = Config.tdec.frameBytes then .ok (decodeStatus (bytes.getD Config.tdec.statusOffset 0))
  else .error (.notOneFrame bytes.length)

/-- The encoder: the status byte of an operation (R57, the patterns of spec/opcode_table.json). -/
def encode : Instr → Byte
  | .cal => 0b00000001#8
  | .norm => 0b00000011#8
  | .unrec00 => 0b00000000#8
  | .unrec02 => 0b00000010#8
  | .unrec04 s => 0b000001#6 ++ s
  | .unrec08 s => 0b00001#5 ++ s
  | .unrec10 s => 0b0001#4 ++ s
  | .unrec20 s => 0b001#3 ++ s
  | .unrec40 s => 0b01#2 ++ s
  | .unrec80 s => 0b1#1 ++ s

/-- The whole frame of an operation over the operand bytes `m`: byte 20 is set to the status and every other byte is
the operand's (R51, R59 step 3). -/
def encodeFrame (i : Instr) (m : Machine.Memory) : Machine.Memory := m.write Config.tdec.statusOffset (encode i)

/-- The row of spec/opcode_table.json an operation belongs to, by its place in `opcodeRows`. -/
def rowIndex : Instr → Nat
  | .cal => 0
  | .norm => 1
  | .unrec00 => 2
  | .unrec02 => 3
  | .unrec04 _ => 4
  | .unrec08 _ => 5
  | .unrec10 _ => 6
  | .unrec20 _ => 7
  | .unrec40 _ => 8
  | .unrec80 _ => 9

/-- The mnemonic a disassembler prints (R60). -/
def mnemonicOf : Instr → String
  | .cal => "CAL"
  | .norm => "NORM"
  | .unrec00 => "UNREC"
  | .unrec02 => "UNREC"
  | .unrec04 _ => "UNREC"
  | .unrec08 _ => "UNREC"
  | .unrec10 _ => "UNREC"
  | .unrec20 _ => "UNREC"
  | .unrec40 _ => "UNREC"
  | .unrec80 _ => "UNREC"

/-- The frame that a word of spec/opcode_table.json stands for (log 17): the table numbers the bits of the status field,
so bit 0 of `w` is bit 160 of the frame, bits 8 and up go on into bytes 21, 22, …, and every other byte is 0. -/
def tableFrame (nbits w : Nat) : Machine.Memory :=
  Machine.Memory.writeBytes [] Config.tdec.statusOffset (Machine.leBytes ((nbits + 7) / 8) (w % 2 ^ nbits))

/-- What the decoder reads from a word of spec/opcode_table.json: none where the word would not fit into a frame. -/
def decodeTableWord (nbits w : Nat) : Option Instr :=
  if 8 * Config.tdec.statusOffset + nbits ≤ 8 * Config.tdec.frameBytes then some (decode (tableFrame nbits w)) else none

end Sys2Proof
end

