-- ==== Sys2Proof/Machine/Float.lean ====
section
/-! DEFINITION. binary64 as spec/00_scope.md R8 and R9 use it: the exact value of a pattern, and `RN`, the one rounding
to the nearest representable value with ties to the even significand, through which every operation goes. The exact
value of a finite pattern is held as an integer multiple of the smallest subnormal, 2^-1074. -/

namespace Sys2Proof.Machine

/-- `2^1074`: the number of smallest subnormals in 1. -/
def unitsPerOne : Nat := 2 ^ 1074

/-- The sign bit (bit 63). -/
def signBit (x : F64) : Bool := decide (2 ^ 63 ≤ x.toNat)

/-- The exponent field (bits 62 to 52). -/
def expField (x : F64) : Nat := x.toNat / 2 ^ 52 % 2048

/-- The fraction field (bits 51 to 0). -/
def fracField (x : F64) : Nat := x.toNat % 2 ^ 52

/-- Neither a NaN nor an infinity. -/
def isFinite (x : F64) : Bool := expField x != 2047

/-- The magnitude of a finite value, in units of 2^-1074. -/
def magUnits (x : F64) : Nat :=
  if expField x = 0 then fracField x else (2 ^ 52 + fracField x) * 2 ^ (expField x - 1)

/-- The exact value of a finite binary64, in units of 2^-1074. -/
def units (x : F64) : Int := if signBit x then -(magUnits x : Int) else (magUnits x : Int)

/-- The quotient `n / d` rounded to the nearest integer, ties to the even one. -/
def divHalfEven (n d : Nat) : Nat :=
  let q := n / d
  let r := n % d
  if 2 * r < d then q else if d < 2 * r then q + 1 else q + q % 2

/-- The exponent of the last place of `n / d` units: the value lies below 2^53 of these places, and from 2^52 of them
on unless it is subnormal. -/
def lastPlace (n d : Nat) : Nat := Nat.log2 (n / d) - 52

/-- The magnitude bits (exponent and fraction field as one number) of the binary64 nearest to `n / d` units. A carry out
of the significand runs into the exponent field, as the layout has it. -/
def roundUnits (n d : Nat) : Nat := lastPlace n d * 2 ^ 52 + divHalfEven n (d * 2 ^ lastPlace n d)

/-- The magnitude bits of infinity: what a value above the largest binary64 rounds to. PRESUMED (IEEE 754, log 10); R9:
no operation of TDEC overflows. -/
def infBits : Nat := 2047 * 2 ^ 52

/-- `RN(q)` of R8 for the exact value `q = num / den` units of 2^-1074. `RN(0)` is `+0.0` (R93). -/
def roundQuot (num : Int) (den : Nat) : F64 :=
  BitVec.ofNat 64 ((if num < 0 then 2 ^ 63 else 0) + min (roundUnits num.natAbs den) infBits)

/-- `i2f(n)` of R8. -/
def i2f (n : Int) : F64 := roundQuot (n * unitsPerOne) 1

/-- `fsub(a, b) = RN(a − b)` of R8. -/
def fsub (x y : F64) : F64 :=
  if isFinite x && isFinite y then roundQuot (units x - units y) 1 else Config.nonFiniteResult .sub x y

/-- `fadd(a, b) = RN(a + b)` of R8. -/
def fadd (x y : F64) : F64 :=
  if isFinite x && isFinite y then roundQuot (units x + units y) 1 else Config.nonFiniteResult .add x y

/-- `fmul(a, b) = RN(a × b)` of R8. -/
def fmul (x y : F64) : F64 :=
  if isFinite x && isFinite y then roundQuot (units x * units y) unitsPerOne else Config.nonFiniteResult .mul x y

/-- `fdiv(a, b) = RN(a / b)` of R8. -/
def fdiv (x y : F64) : F64 :=
  if isFinite x && isFinite y && units y != 0 then
    roundQuot (units x * (units y).sign * unitsPerOne) (units y).natAbs
  else Config.nonFiniteResult .div x y

/-- `flt(a, b)` of R8: `a < b` on the exact values. -/
def flt (x y : F64) : Bool :=
  if isFinite x && isFinite y then decide (units x < units y) else Config.nonFiniteLess x y

end Sys2Proof.Machine
end

