-- ==== Sys2Proof/Machine/Operands.lean ====
section
/-! DEFINITION. Operand assembly (spec/30_encoding.md R54 to R56): the raw grid, the crop, the working grid. Sizes and
offsets come from the parameter record (spec/00_scope.md R5). -/

namespace Sys2Proof.Machine

/-- A raw word read as a pixel (R54; decision D25 for the unsigned alternative). -/
def pixelOf (p : Config.Params) (v : Nat) : Int := if p.pixelSigned then sext p.pixelBits v else zext v

/-- `word[k]` of R51 as a pixel: bytes `2k` and `2k + 1`, little-endian. -/
def wordPixel (p : Config.Params) (m : Memory) (k : Nat) : Int :=
  pixelOf p (memRead m (p.pixelBytes * k) p.pixelBytes)

/-- `G[r][c]` of R54, raw-grid element. -/
def rawPixel (p : Config.Params) (m : Memory) (r c : Nat) : Int := wordPixel p m (p.colsRaw * r + c)

/-- The linear index of a coordinate of the working grid, row-major (R7, R30). -/
def gridIndex (p : Config.Params) (r c : Nat) : Nat := p.cols * r + c

/-- `P` of R55 in row-major order: the raw grid without its last rows and last columns, coordinates unshifted. -/
def workingGrid (p : Config.Params) (m : Memory) : List Int :=
  (List.range p.nPix).map fun i => rawPixel p m (i / p.cols) (i % p.cols)

/-- The bytes of `n` addresses from `lo` on, in one pass over cells in canonical form. -/
def denseBytes : Nat → Nat → Memory → List Byte
  | 0, _, _ => []
  | n + 1, lo, [] => unlistedByte :: denseBytes n (lo + 1) []
  | n + 1, lo, (a, b) :: rest =>
    if a = lo then b :: denseBytes n (lo + 1) rest else unlistedByte :: denseBytes n (lo + 1) ((a, b) :: rest)

/-- Bytes taken two by two as pixels. -/
def pairPixels (p : Config.Params) : List Byte → List Int
  | lo :: hi :: rest => pixelOf p (lo.toNat + 256 * hi.toNat) :: pairPixels p rest
  | [_] => []
  | [] => []

/-- The first `rows` rows of a grid of `colsRaw` columns, each cut to `cols` columns. -/
def cropList (cols colsRaw : Nat) : Nat → List Int → List Int
  | 0, _ => []
  | rows + 1, l => l.take cols ++ cropList cols colsRaw rows (l.drop colsRaw)

/-- The working grid in one pass over FRAME: the same grid as `workingGrid` on cells in canonical form, handier to run. -/
def denseGrid (p : Config.Params) (m : Memory) : List Int :=
  cropList p.cols p.colsRaw p.rows (pairPixels p (denseBytes p.frameBytes 0 m))

end Sys2Proof.Machine
end

