-- ==== Sys2Proof/Machine/State.lean ====
section
/-! DEFINITION. The state of TDEC and of what the host holds at its ports (spec/10_state.md R22, spec/20_memory.md R30
and R43), as plain data; the reasons a step can stop; the state after reset (spec/70_reset_and_hazards.md R136). -/

namespace Sys2Proof.Machine

/-- OUTCOME of R115: the four results of an operation. -/
inductive FrameOutcome where
  | calUpdated
  | temperature
  | unrecognized
  | noCalibration
  deriving DecidableEq, Repr

/-- An output the host can read: the ports of R43 and the TMAP buffer of R33. -/
inductive Port where
  /-- `busy`. -/
  | busy
  /-- `done`. -/
  | done
  /-- `outcome`. -/
  | outcome
  /-- `tmap_valid`. -/
  | tmapValid
  /-- `status`, the STATUS view (R14). -/
  | status
  /-- The DEAD read port at a linear index, `dead_addr` (R32). -/
  | dead (index : BitVec 15)
  /-- One element of the TMAP buffer at a linear index (R33). -/
  | tmap (index : BitVec 15)
  deriving DecidableEq, Repr

/-- What a read of an output delivers, with the width of R43. -/
inductive PortValue where
  | bit (b : Bool)
  | code (c : BitVec 2)
  | word (w : F64)
  deriving DecidableEq, Repr

/-- One move of the host (R40, R43). The host is the second agent of R40. -/
inductive HostMove where
  /-- The host leaves TDEC alone for one step. -/
  | idle
  /-- `rst` is asserted (R135). -/
  | rst
  /-- The host writes bytes into FRAME from a byte address on (R31, R39). -/
  | write (address : Nat) (bytes : List Byte)
  /-- `start` is asserted (R43). -/
  | start
  /-- The host reads an output (R14, R32, R33, R43). -/
  | read (port : Port)
  deriving DecidableEq, Repr

/-- Everything the spec gives the machine, plain data throughout. -/
structure State where
  /-- `CAL_VALID` (R12). -/
  calValid : Bool
  /-- `DP_DONE` (R13). -/
  dpDone : Bool
  /-- `CAL` (R16), row-major by linear index; none while the store has no value (U9). -/
  cal : Option (List F64)
  /-- `DEAD` (R18), row-major by linear index; none while the mask has no value (U9). -/
  dead : Option (List Bool)
  /-- The FRAME space (R31), the host's buffer that an operation reads. -/
  frame : Memory
  /-- The `busy` output: an operation was started and has not ended (R43). -/
  busy : Bool
  /-- The `done` output (R43). -/
  done : Bool
  /-- The `outcome` output (R43, R115); none where the spec leaves it unspecified (R136, U7). -/
  outcome : Option FrameOutcome
  /-- The TMAP buffer (R33), row-major; none while it holds no valid map (R122, U8). -/
  tmap : Option (List F64)
  /-- The model's own field (log 1): the host's coming moves, oldest first. -/
  host : List HostMove
  /-- The model's own field (log 8): what the host's last read of an output delivered. -/
  lastRead : Option PortValue
  /-- The model's own field (log 7): how many free values `Config.anyValue` has given. -/
  freeCount : Nat
  deriving DecidableEq, Repr

/-- Why a step faults. -/
inductive Fault where
  /-- The host's write reaches past the last address of the FRAME space (R30: addresses 0 to 64895); `address` is the last
  one it would reach. DESIGN CHOICE (log 14). Raised by the host's move `write`. Safe: the run stops. -/
  | frameAddress (address : Nat)
  deriving DecidableEq, Repr

/-- Why a step is refused. No operation is ever refused: these are the host moves the spec tells a model to refuse. -/
inductive Refusal where
  /-- An instruction that has no meaning yet; raised by no arm of `exec` in this model. Safe. -/
  | notModelled (mnemonic : String)
  /-- The host writes FRAME while an operation is in progress (R42, R144, U3). Raised by the host's move `write`. Safe. -/
  | frameWriteWhileBusy
  /-- The host reads an output that is unspecified during an operation (R32, R144, U6, U7). Raised by the host's move
  `read`. Safe. -/
  | readWhileBusy
  /-- The host reads DEAD while `DP_DONE = 0` (R18, R32, U5). Raised by the host's move `read`. Safe. -/
  | deadBeforeDetection
  /-- The host reads DEAD with an index of `N_PIX` or more (R32, U6). Raised by the host's move `read`. Safe. -/
  | deadIndex
  /-- The host reads the TMAP buffer with an index of `N_PIX` or more (R30: 31930 elements). Raised by the host's move
  `read`. Safe. -/
  | tmapIndex
  deriving DecidableEq, Repr

/-- The state right after reset (R136), before the host has done anything. -/
def State.reset : State where
  calValid := false
  dpDone := false
  cal := none
  dead := none
  frame := []
  busy := false
  done := false
  outcome := none
  tmap := none
  host := []
  lastRead := none
  freeCount := 0

end Sys2Proof.Machine
end

