-- ==== Sys2Proof/Machine/Flags.lean ====
section
/-! DEFINITION. The flags and the views of them that the host sees (spec/10_state.md R12 to R15; spec/60_exceptions.md
R115, R122). -/

namespace Sys2Proof.Machine

/-- STATUS of R14: bit 0 is `CAL_VALID`, bit 1 is `DP_DONE`. A view, with no state of its own. -/
def State.status (s : State) : BitVec 2 := BitVec.ofBool s.dpDone ++ BitVec.ofBool s.calValid

/-- `DPC_EN` of R15: hardwired 0, not state. -/
def State.dpcEn (_ : State) : Bool := false

/-- `tmap_valid` of R43: 1 exactly when the outcome is TEMPERATURE. -/
def State.tmapValid (s : State) : Bool := s.outcome == some .temperature

/-- The 2-bit OUTCOME codes of R115. -/
def FrameOutcome.code : FrameOutcome → BitVec 2
  | .calUpdated => 0
  | .temperature => 1
  | .unrecognized => 2
  | .noCalibration => 3

/-- `CAL_VALID <- 1` (R76). -/
def State.setCalValid (s : State) : State := { s with calValid := true }

/-- `DP_DONE <- 1` (R79). -/
def State.setDpDone (s : State) : State := { s with dpDone := true }

end Sys2Proof.Machine
end

