-- ==== Sys2Proof/Machine/Ops.lean ====
section
/-! DEFINITION. The named operations over the state: reading the stores, ending an operation (`return` and `raise` of
spec/00_scope.md R8, spec/60_exceptions.md R121), accepting a start and resetting (spec/20_memory.md R43,
spec/70_reset_and_hazards.md R135). TDEC has no return from an error and nothing to restore (R123). -/

namespace Sys2Proof.Machine

/-- A store that has no value reads as free values (U9). -/
def calUnspecified (p : Config.Params) : List F64 := (List.range p.nPix).map Config.unspecifiedCal

/-- The `N_PIX` elements NORM reads from CAL (R16, R93). -/
def State.calElems (p : Config.Params) (s : State) : List F64 :=
  match s.cal with
  | some l => if l.length = p.nPix then l else calUnspecified p
  | none => calUnspecified p

/-- `DEAD` by linear index, as the read port of R32 sees it. -/
def State.deadAt (s : State) (i : Nat) : Bool :=
  match s.dead with
  | some l => l.getD i (Config.unspecifiedDead i)
  | none => Config.unspecifiedDead i

/-- The end of an operation (R38, R43): it reports its outcome and, with TEMPERATURE, hands over its map. -/
def State.finish (s : State) (o : FrameOutcome) (map : Option (List F64)) : State :=
  { s with busy := false, done := true, outcome := some o, tmap := map }

/-- `raise <Outcome>` of R8 and R121, the analogue of taking an exception: the operation ends with the outcome, writes
no state and produces no map. No register saves anything and no control is transferred. -/
def State.raise (s : State) (o : FrameOutcome) : State := s.finish o none

/-- An accepted `start` (R43): `outcome` and `tmap_valid` were valid until now, and from now on the TMAP buffer is
TDEC's (R33, R146). -/
def State.acceptStart (s : State) : State := { s with busy := true, done := false, outcome := none, tmap := none }

/-- The reset event (R135 to R138): the flags are cleared, CAL, DEAD and the TMAP buffer have no value, an operation in
progress is abandoned without an outcome. FRAME is the host's buffer and is not touched (R136). -/
def State.resetEvent (s : State) : State :=
  { s with
    calValid := false, dpDone := false, cal := none, dead := none,
    busy := false, done := false, outcome := none, tmap := none }

/-- The bytes of a map or of any list of binary64 values (R35): element `i` at bytes `8i` to `8i + 7`, least significant
byte first. -/
def serialise (l : List F64) : List Byte := l.flatMap fun x => leBytes 8 x.toNat

/-- Where bulk read number `i` stands in FRAME (R31, R39). -/
def chunkBase (p : Config.Params) (i : Nat) : Nat := p.chunkBytes * i

/-- The host's move that puts bulk read number `i` into FRAME (R39). -/
def bulkRead (p : Config.Params) (i : Nat) (bytes : List Byte) : HostMove := .write (chunkBase p i) bytes

end Sys2Proof.Machine
end

