-- ==== Sys2Proof/Machine/Calibrate.lean ====
section
/-! DEFINITION. The CAL operation (spec/41_calibrate.md R75 to R82). -/

namespace Sys2Proof.Machine

/-- `S` of R77: the exact sum of the working grid. -/
def gridSum (g : List Int) : Int := g.sum

/-- `mean = RN(S / N_PIX)` of R79. -/
def gridMean (p : Config.Params) (g : List Int) : F64 := fdiv (i2f (gridSum g)) (i2f p.nPix)

/-- `thr = RN(K_DEAD × mean)` of R79. -/
def deadThreshold (p : Config.Params) (g : List Int) : F64 := fmul p.kDead (gridMean p g)

/-- The test of R79 against a threshold: strictly below it. -/
def isDead (thr : F64) (v : Int) : Bool := flt (i2f v) thr

/-- The whole mask of R79. -/
def deadMask (p : Config.Params) (g : List Int) : List Bool :=
  let thr := deadThreshold p g
  g.map (isDead thr)

/-- Dead-pixel detection (R78, R79): only when `DP_DONE = 0`. -/
def State.detect (p : Config.Params) (g : List Int) (s : State) : State :=
  if s.dpDone then s else ({ s with dead := some (deadMask p g) } : State).setDpDone

/-- The capture (R76): the whole store is replaced. -/
def State.capture (g : List Int) (s : State) : State := ({ s with cal := some (g.map i2f) } : State).setCalValid

/-- CAL of R75 for any parameter record. -/
def calOperation (p : Config.Params) (s : State) : State :=
  let g := workingGrid p s.frame
  ((s.detect p g).capture g).finish .calUpdated none

/-- CAL (R75): it cannot fail. -/
def execCal (s : State) : Host.Outcome State Fault Refusal := .next (calOperation Config.tdec s)

end Sys2Proof.Machine
end

