-- ==== Sys2Proof/Machine/Classify.lean ====
section
/-! DEFINITION. The UNREC operation (spec/40_classify.md R67), the operation of every reserved status value: one meaning
per row of spec/opcode_table.json over one shared operation. -/

namespace Sys2Proof.Machine

/-- UNREC of R67: no state change, no map, outcome UNRECOGNIZED. -/
def unrecOperation (s : State) : State := s.raise .unrecognized

/-- UNREC, status `00000000` (R67). -/
def execUnrec00 (s : State) : Host.Outcome State Fault Refusal := .next (unrecOperation s)

/-- UNREC, status `00000010` (R67). -/
def execUnrec02 (s : State) : Host.Outcome State Fault Refusal := .next (unrecOperation s)

/-- UNREC, status `000001ss` (R67): the free bits have no effect (R52, R58). -/
def execUnrec04 (_ : BitVec 2) (s : State) : Host.Outcome State Fault Refusal := .next (unrecOperation s)

/-- UNREC, status `00001sss` (R67). -/
def execUnrec08 (_ : BitVec 3) (s : State) : Host.Outcome State Fault Refusal := .next (unrecOperation s)

/-- UNREC, status `0001ssss` (R67). -/
def execUnrec10 (_ : BitVec 4) (s : State) : Host.Outcome State Fault Refusal := .next (unrecOperation s)

/-- UNREC, status `001sssss` (R67). -/
def execUnrec20 (_ : BitVec 5) (s : State) : Host.Outcome State Fault Refusal := .next (unrecOperation s)

/-- UNREC, status `01ssssss` (R67). -/
def execUnrec40 (_ : BitVec 6) (s : State) : Host.Outcome State Fault Refusal := .next (unrecOperation s)

/-- UNREC, status `1sssssss` (R67). -/
def execUnrec80 (_ : BitVec 7) (s : State) : Host.Outcome State Fault Refusal := .next (unrecOperation s)

end Sys2Proof.Machine
end

