-- ==== Sys2Proof/Machine/Normalize.lean ====
section
/-! DEFINITION. The NORM operation (spec/42_decode.md R90 to R97). -/

namespace Sys2Proof.Machine

/-- One element of the map (R93, R94): subtract the calibration, multiply by the gain, add the offset, each rounded. -/
def celsius (p : Config.Params) (x c : F64) : F64 := fadd (fmul (fsub x c) p.kGain) p.kOffset

/-- `T(D)` of R94, the transform as a function of the integer difference. -/
def celsiusOfDiff (p : Config.Params) (d : Int) : F64 := fadd (fmul (i2f d) p.kGain) p.kOffset

/-- The whole map of R90, element by element (R96). -/
def tempMap (p : Config.Params) (s : State) : List F64 :=
  List.zipWith (fun v c => celsius p (i2f v) c) (workingGrid p s.frame) (s.calElems p)

/-- NORM of R90 for any parameter record: the calibration check comes first (R91). -/
def normOperation (p : Config.Params) (s : State) : State :=
  if s.calValid then s.finish .temperature (some (tempMap p s)) else s.raise .noCalibration

/-- NORM (R90). NO_CALIBRATION is a result of the step, not a fault of the model (R121, U1). -/
def execNorm (s : State) : Host.Outcome State Fault Refusal := .next (normOperation Config.tdec s)

end Sys2Proof.Machine
end

