-- ==== Sys2Proof/Machine/Dispatch.lean ====
section
/-! DEFINITION. The dispatch of spec/40_classify.md R65: one arm per operation. -/

namespace Sys2Proof.Machine

def exec (i : Instr) (s : State) : Host.Outcome State Fault Refusal :=
  match i with
  | .cal => Sys2Proof.Machine.execCal s
  | .norm => Sys2Proof.Machine.execNorm s
  | .unrec00 => Sys2Proof.Machine.execUnrec00 s
  | .unrec02 => Sys2Proof.Machine.execUnrec02 s
  | .unrec04 f => Sys2Proof.Machine.execUnrec04 f s
  | .unrec08 f => Sys2Proof.Machine.execUnrec08 f s
  | .unrec10 f => Sys2Proof.Machine.execUnrec10 f s
  | .unrec20 f => Sys2Proof.Machine.execUnrec20 f s
  | .unrec40 f => Sys2Proof.Machine.execUnrec40 f s
  | .unrec80 f => Sys2Proof.Machine.execUnrec80 f s

end Sys2Proof.Machine
end

