-- ==== Sys2Proof/Machine/HostPorts.lean ====
section
/-! DEFINITION. What each move of the host does to the machine (spec/20_memory.md R32, R39 to R43;
spec/70_reset_and_hazards.md R135, R138, R142 to R146). -/

namespace Sys2Proof.Machine

/-- A read of an output delivers a value and has no other effect (R14, R32). -/
def deliver (v : PortValue) (s : State) : Host.Outcome State Fault Refusal := .next { s with lastRead := some v }

/-- A read whose value the spec leaves at "any value" (U7, U8; log 7): `v` is made from the next free value, which is then
used up. -/
def deliverAny (v : PortValue) (s : State) : Host.Outcome State Fault Refusal :=
  .next { s with lastRead := some v, freeCount := s.freeCount + 1 }

/-- The `outcome` port (R43, R115): any code until the first `done` after a reset (R136, U7). -/
def readOutcome (s : State) : Host.Outcome State Fault Refusal :=
  match s.outcome with
  | some o => deliver (.code o.code) s
  | none => deliverAny (.code ((Config.anyValue s.freeCount).setWidth 2)) s

/-- One bit of DEAD through its read port (R32): refused while `DP_DONE = 0` (U5) and outside the mask (U6). -/
def readDead (p : Config.Params) (i : BitVec 15) (s : State) : Host.Outcome State Fault Refusal :=
  if s.dpDone = false then .refused .deadBeforeDetection
  else if p.nPix ≤ i.toNat then .refused .deadIndex
  else deliver (.bit (s.deadAt i.toNat)) s

/-- One element of the TMAP buffer (R33): any value unless the buffer holds a valid map (R122, U8). -/
def readTmap (p : Config.Params) (i : BitVec 15) (s : State) : Host.Outcome State Fault Refusal :=
  if p.nPix ≤ i.toNat then .refused .tmapIndex
  else
    match s.tmap.bind (fun l => l[i.toNat]?) with
    | some x => deliver (.word x) s
    | none => deliverAny (.word (Config.anyValue s.freeCount)) s

/-- The host reads an output. While `busy = 1` only `busy` and `done` have a value; a model refuses the other reads
(R144). -/
def hostRead (p : Config.Params) (port : Port) (s : State) : Host.Outcome State Fault Refusal :=
  match port with
  | .busy => deliver (.bit s.busy) s
  | .done => deliver (.bit s.done) s
  | .outcome => if s.busy then .refused .readWhileBusy else readOutcome s
  | .tmapValid => if s.busy then .refused .readWhileBusy else deliver (.bit s.tmapValid) s
  | .status => if s.busy then .refused .readWhileBusy else deliver (.code s.status) s
  | .dead i => if s.busy then .refused .readWhileBusy else readDead p i s
  | .tmap i => if s.busy then .refused .readWhileBusy else readTmap p i s

/-- The host writes FRAME: refused during an operation (R42, U3). DESIGN CHOICE (log 14): past the last address of the
space of R30 it is a fault. DEDUCED (log 22): TDEC cannot tell a short frame from a whole one (R142), so a write of any
length inside the space lands. -/
def hostWrite (p : Config.Params) (a : Nat) (bytes : List Byte) (s : State) : Host.Outcome State Fault Refusal :=
  if s.busy then .refused .frameWriteWhileBusy
  else if p.frameBytes < a + bytes.length then .fault (.frameAddress (a + bytes.length - 1))
  else .next { s with frame := s.frame.writeBytes a bytes }

/-- The host asserts `start`: accepted when idle, not honoured and without effect while `busy = 1` (R43, R143). -/
def hostStart (s : State) : Host.Outcome State Fault Refusal := .next (if s.busy then s else s.acceptStart)

/-- The host asserts `rst`, between operations (R135) or during one (R138). -/
def hostReset (s : State) : Host.Outcome State Fault Refusal := .next s.resetEvent

end Sys2Proof.Machine
end

