-- ==== Sys2Proof/Machine/Turn.lean ====
section
/-! DEFINITION. Whose turn it is (spec/20_memory.md R40): TDEC's turn, in which a started operation runs as one atomic
transition (R38), and the host's turn. -/

namespace Sys2Proof.Machine

/-- The operation that the FRAME contents select (R42: status and pixels come from the same contents). -/
def fetch (s : State) : Instr := decode s.frame

/-- TDEC's turn: a started operation runs whole (R38, R65); when idle TDEC waits for the host (R69). -/
def tdecTurn (s : State) : Host.Outcome State Fault Refusal := if s.busy then exec (fetch s) s else .next s

/-- One move of the host. `idle` gives the turn to TDEC. -/
def hostTurn (p : Config.Params) (m : HostMove) (s : State) : Host.Outcome State Fault Refusal :=
  match m with
  | .idle => tdecTurn s
  | .rst => hostReset s
  | .write a bytes => hostWrite p a bytes s
  | .start => hostStart s
  | .read port => hostRead p port s

/-- One step of the two agents: the host's next move, or TDEC's turn when the host has none. -/
def turn (s : State) : Host.Outcome State Fault Refusal :=
  match s.host with
  | [] => tdecTurn s
  | m :: rest => hostTurn Config.tdec m { s with host := rest }

/-- The host has put the contents `m` into FRAME, `start` was accepted, and the host now leaves TDEC alone. -/
def State.present (s : State) (m : Memory) : State := { s.acceptStart with frame := m, host := [] }

/-- The same without clearing the outputs of the operation before: only what the next operation is fetched from. -/
def State.placeFrame (s : State) (m : Memory) : State := { s with frame := m, busy := true, host := [] }

end Sys2Proof.Machine
end

