-- ==== Sys2Proof/Machine/Step.lean ====
section
/-! DEFINITION. One step of the machine, and the placing of one operation where the next step fetches it. -/

namespace Sys2Proof.Machine

/-- One step (spec/20_memory.md R38, R40). -/
def step (s : State) : Host.Outcome State Fault Refusal := turn s

/-- `s` with the frame of a word of spec/opcode_table.json in FRAME and the operation started (log 2, log 17), so that
the next step runs it. -/
def State.withFetchWord (s : State) (nbits w : Nat) : State := s.placeFrame (tableFrame nbits w)

end Sys2Proof.Machine
end

