-- ==== Sys2Proof/Machine/Frames.lean ====
section
/-! DEFINITION. The textual frame notation (spec/30_encoding.md R59 to R61): the byte image of a frame line, and the host
moves that a program stands for. -/

namespace Sys2Proof.Machine

/-- Word `k` of a frame line before its status is set (R59 steps 1 and 2): the fill, or the last `px` that names the
word's coordinate ("left to right"). -/
def frameWord (p : Config.Params) (l : FrameLine) (k : Nat) : RawWord :=
  l.px.foldl (fun w x => if x.row = k / p.colsRaw ∧ x.col = k % p.colsRaw then x.value else w) l.fill

/-- Byte `a` of the image (R59): words low byte first, then the status at `STATUS_OFFSET`, then `b21` one above it. -/
def frameByte (p : Config.Params) (l : FrameLine) (a : Nat) : Byte :=
  let fromWord := (frameWord p l (a / 2)).extractLsb' (8 * (a % 2)) 8
  if a = p.statusOffset then l.status
  else if a = p.statusOffset + 1 then l.b21.getD fromWord
  else fromWord

/-- The whole byte image of a frame line (R59): `FRAME_BYTES` bytes. -/
def frameImage (p : Config.Params) (l : FrameLine) : List Byte := (List.range p.frameBytes).map (frameByte p l)

/-- The frame of a program line, if it is one: `CAL <rest>` is `FRAME status=1 <rest>`, and so on (R60). -/
def lineFrame (p : Config.Params) : ProgramLine → Option FrameLine
  | .frame l => some l
  | .cal fill b21 px => some { status := p.statusCal, fill := fill, b21 := b21, px := px }
  | .norm fill b21 px => some { status := p.statusNorm, fill := fill, b21 := b21, px := px }
  | .unrec status fill b21 px => some { status := status, fill := fill, b21 := b21, px := px }
  | .reset => none
  | .expect _ => none

/-- What the host does with one frame (R40, R142): it fills FRAME, starts, and leaves TDEC alone until the operation has
ended. -/
def frameMoves (image : List Byte) : List HostMove := [.write 0 image, .start, .idle]

/-- The host moves of a program line (R61): a frame, the reset event, or nothing for a comment. -/
def lineMoves (p : Config.Params) (l : ProgramLine) : List HostMove :=
  match lineFrame p l with
  | some f => frameMoves (frameImage p f)
  | none => if l = .reset then [.rst] else []

/-- A program, run top to bottom, each step ended before the next starts (R61). -/
def programMoves (p : Config.Params) (prog : List ProgramLine) : List HostMove := prog.flatMap (lineMoves p)

end Sys2Proof.Machine
end

