-- ==== Sys2Proof/Safety.lean ====
section
/-! DEFINITION. What counts as a safe state and a safe run of TDEC, in the terms the statements use. -/

namespace Sys2Proof.Machine

/-- The value set of CAL (spec/10_state.md R17): an integer-valued binary64 in −32768 to 32767. -/
def IsPixelValue (x : F64) : Prop := ∃ n : Int, -32768 ≤ n ∧ n ≤ 32767 ∧ x = i2f n

/-- CAL holds a whole grid of pixel values exactly while `CAL_VALID = 1` (R16, R17). -/
def CalInv (s : State) : Prop :=
  if s.calValid then ∃ l, s.cal = some l ∧ l.length = Config.tdec.nPix ∧ ∀ x ∈ l, IsPixelValue x else s.cal = none

/-- DEAD holds a whole mask exactly while `DP_DONE = 1` (R18). -/
def DeadInv (s : State) : Prop :=
  if s.dpDone then ∃ l, s.dead = some l ∧ l.length = Config.tdec.nPix else s.dead = none

/-- The TMAP buffer holds a whole map exactly when the outcome is TEMPERATURE (R20, R122). -/
def MapInv (s : State) : Prop :=
  if s.tmapValid then ∃ l, s.tmap = some l ∧ l.length = Config.tdec.nPix else s.tmap = none

/-- FRAME is in canonical form and lies inside its space (R30). -/
def FrameInv (s : State) : Prop := s.frame.wf = true ∧ s.frame.within Config.tdec.frameBytes = true

/-- The invariant of every state reachable from reset. -/
structure State.Inv (s : State) : Prop where
  /-- `DP_DONE = CAL_VALID` (R14, R22 (i)). -/
  flags : s.dpDone = s.calValid
  cal : CalInv s
  dead : DeadInv s
  map : MapInv s
  frame : FrameInv s
  /-- While `busy = 1`, `done` is 0 and no outcome is on the port (R43). -/
  ports : s.busy = true → s.done = false ∧ s.outcome = none

/-- The state tuple of R22, which the step of R38 acts on. -/
def State.tuple (s : State) : Bool × Bool × Option (List F64) × Option (List Bool) :=
  (s.calValid, s.dpDone, s.cal, s.dead)

/-- Two FRAME contents agree on the words of the working grid, which are all that some rule needs (R37, R55); the status
byte is one of their bytes (R56). -/
def SameNeeded (m m' : Memory) : Prop :=
  ∀ r c, r < 155 → c < 206 →
    m.read (2 * (208 * r + c)) = m'.read (2 * (208 * r + c)) ∧
      m.read (2 * (208 * r + c) + 1) = m'.read (2 * (208 * r + c) + 1)

/-- A sequence of frames, each presented and run to its end before the next (R40 (c), R61). -/
def runFrames : State → List Memory → Host.Outcome State Fault Refusal
  | s, [] => .next s
  | s, m :: ms =>
    match step (s.present m) with
    | .next t => runFrames t ms
    | .fault r => .fault r
    | .refused r => .refused r

/-- The coordinate `(r, c)` of the map, if there is one. -/
def State.mapAt (s : State) (r c : Nat) : Option F64 :=
  s.tmap.bind fun l => l[gridIndex Config.tdec r c]?

/-- The coordinate `(r, c)` of CAL, if the store has a value. -/
def State.calAt (s : State) (r c : Nat) : Option F64 :=
  s.cal.bind fun l => l[gridIndex Config.tdec r c]?

/-- The coordinate `(r, c)` of DEAD, if the mask has a value. -/
def State.deadBit (s : State) (r c : Nat) : Option Bool :=
  s.dead.bind fun l => l[gridIndex Config.tdec r c]?

end Sys2Proof.Machine
end

