-- ==== Sys2Proof/Certificates/Slice0/Obligations.lean ====
section
/-! DEFINITION. The statements for the provers, each a proposition about the model, in the order of the spec's files. Sizes
and constants stand as the spec writes them (155 rows, 206 columns, 208 raw columns, 31930 pixels, 64896 bytes). -/

open Sys2Proof Sys2Proof.Machine

/-! ### Parameters, numbers, binary64 (spec/00_scope.md) -/

/-- R5: the value column, and the relation column. -/
def Obligations.ParametersOfThisHardware : Prop :=
  Config.tdec.chunkBytes = 16224 ∧ Config.tdec.nChunks = 4 ∧ Config.tdec.frameBytes = 64896 ∧
    Config.tdec.rowsRaw = 156 ∧ Config.tdec.colsRaw = 208 ∧ Config.tdec.nRaw = 32448 ∧
    Config.tdec.cropRows = 1 ∧ Config.tdec.cropCols = 2 ∧ Config.tdec.rows = 155 ∧ Config.tdec.cols = 206 ∧
    Config.tdec.nPix = 31930 ∧ Config.tdec.statusOffset = 20 ∧ Config.tdec.statusCal = 1 ∧
    Config.tdec.statusNorm = 3 ∧ Config.tdec.pixelBits = 16 ∧ Config.tdec.wf = true ∧
    Config.tdec.frameBytes = 2 * Config.tdec.nRaw ∧
    (∀ i k, i < 4 → k < 16224 →
      39 * i ≤ (chunkBase Config.tdec i + k) / 416 ∧ (chunkBase Config.tdec i + k) / 416 ≤ 39 * i + 38)

/-- R6: the three constants are the binary64 values nearest to their decimal literals, with the bit patterns and the
exact values of the table. -/
def Obligations.ConstantsAreNearestLiterals : Prop :=
  Config.tdec.kGain = 0x3F925460AA64C2F8#64 ∧ Config.tdec.kOffset = 0x4045000000000000#64 ∧
    Config.tdec.kDead = 0x3FD3333333333333#64 ∧
    Config.tdec.kGain = roundQuot (179 * 2 ^ 1074) 10000 ∧ Config.tdec.kOffset = roundQuot (42 * 2 ^ 1074) 1 ∧
    Config.tdec.kDead = roundQuot (3 * 2 ^ 1074) 10 ∧
    units Config.tdec.kGain * 2 ^ 55 = 644915466639455 * 2 ^ 1074 ∧ units Config.tdec.kOffset = 42 * 2 ^ 1074 ∧
    units Config.tdec.kDead * 2 ^ 54 = 5404319552844595 * 2 ^ 1074

/-- R8, `RN`: whenever `num / den` units does not round past the largest binary64, `RN` gives a finite value, no finite
binary64 is nearer, and where another one is just as near the last significand bit of the result is 0. -/
def Obligations.RoundingIsNearestTiesToEven : Prop :=
  ∀ (num : Int) (den : Nat), 0 < den → roundUnits num.natAbs den < infBits →
    isFinite (roundQuot num den) = true ∧
      ∀ y : F64, isFinite y = true →
        (num - units (roundQuot num den) * den).natAbs ≤ (num - units y * den).natAbs ∧
          ((num - units (roundQuot num den) * den).natAbs = (num - units y * den).natAbs →
            units y ≠ units (roundQuot num den) → (roundQuot num den).toNat % 2 = 0)

/-- R8, `i2f`: exact for every integer of magnitude up to 2^53. -/
def Obligations.IntegersConvertExactly : Prop :=
  ∀ n : Int, n.natAbs ≤ 2 ^ 53 → isFinite (i2f n) = true ∧ units (i2f n) = n * 2 ^ 1074

/-! ### State, flags, ports (spec/10_state.md, spec/20_memory.md) -/

/-- R14: STATUS is the two flags, bit 0 CAL_VALID and bit 1 DP_DONE; reading it between operations delivers it and has no
other effect (what was read stands in the model's own field `lastRead`, log 8); during an operation the read is refused
(R144). -/
def Obligations.StatusViewOfFlags : Prop :=
  ∀ (s : State) (rest : List HostMove), s.host = .read .status :: rest →
    s.status.getLsbD 0 = s.calValid ∧ s.status.getLsbD 1 = s.dpDone ∧
      (s.busy = false → step s = .next { s with host := rest, lastRead := some (.code s.status) }) ∧
      (s.busy = true → step s = .refused .readWhileBusy)

/-- R14 and R22 (i): under the invariant of the model STATUS reads `0b00` or `0b11`. -/
def Obligations.StatusReadsBothOrNone : Prop :=
  ∀ s : State, s.Inv → s.status = 0b00#2 ∨ s.status = 0b11#2

/-- R32: the DEAD read port, by its linear index: refused during an operation, while `DP_DONE = 0`, and from index 31930
on; else it delivers the bit (into the model's own field `lastRead`, log 8) and has no side effect. -/
def Obligations.DeadReadPort : Prop :=
  ∀ (s : State) (i : BitVec 15) (rest : List HostMove), s.host = .read (.dead i) :: rest →
    if s.busy = true then step s = .refused .readWhileBusy
    else if s.dpDone = false then step s = .refused .deadBeforeDetection
    else if 31930 ≤ i.toNat then step s = .refused .deadIndex
    else
      ∀ l b, s.dead = some l → l[i.toNat]? = some b →
        step s = .next { s with host := rest, lastRead := some (.bit b) }

/-- R33, R122 and R144: the read of the TMAP buffer, in every form. During an operation it is refused (R144). At index
31930 or more it is refused under the name tmapIndex, which is the model's own choice (log 15). Else the host reads the
element the buffer holds there; where it holds none it reads some word, whichever (the model's free value, log 7). What was
read stands in the model's own field `lastRead` (log 8), and nothing else changes. -/
def Obligations.TmapBufferRead : Prop :=
  ∀ (s : State) (i : BitVec 15) (rest : List HostMove), s.host = .read (.tmap i) :: rest →
    if s.busy = true then step s = .refused .readWhileBusy
    else if 31930 ≤ i.toNat then step s = .refused .tmapIndex
    else
      (∀ l x, s.tmap = some l → l[i.toNat]? = some x →
          step s = .next { s with host := rest, lastRead := some (.word x) }) ∧
        ((∀ l, s.tmap = some l → l[i.toNat]? = none) → ∃ w : F64,
          step s = .next { s with host := rest, lastRead := some (.word w), freeCount := s.freeCount + 1 })

/-- R43 and R144: `busy` and `done` can be read at any time; `outcome` and `tmap_valid` only when no operation is in
progress, and then they show the last outcome, or, before the first one (R136, U7), some code (the model's free value,
log 7). Such a read changes nothing else but the model's own field `lastRead` (log 8). -/
def Obligations.OutputPortsRead : Prop :=
  ∀ (s : State) (rest : List HostMove),
    (s.host = .read .busy :: rest →
      step s = .next { s with host := rest, lastRead := some (.bit s.busy) }) ∧
    (s.host = .read .done :: rest →
      step s = .next { s with host := rest, lastRead := some (.bit s.done) }) ∧
    (s.host = .read .tmapValid :: rest →
      if s.busy = true then step s = .refused .readWhileBusy
      else step s = .next { s with host := rest, lastRead := some (.bit (decide (s.outcome = some .temperature))) }) ∧
    (s.host = .read .outcome :: rest →
      if s.busy = true then step s = .refused .readWhileBusy
      else
        (∀ o, s.outcome = some o → step s = .next { s with host := rest, lastRead := some (.code o.code) }) ∧
          (s.outcome = none → ∃ c : BitVec 2,
            step s = .next { s with host := rest, lastRead := some (.code c), freeCount := s.freeCount + 1 }))

/-- R35: element `i` of a serialised map occupies bytes `8i` to `8i + 7`, least significant byte first. -/
def Obligations.MapSerialisesLittleEndian : Prop :=
  ∀ (l : List F64), (serialise l).length = 8 * l.length ∧
    ∀ i k, k < 8 → (serialise l)[8 * i + k]? = l[i]?.map fun x => x.extractLsb' (8 * k) 8

/-- R38: the step is total and deterministic, and it is a function of the tuple of R22 and of FRAME: after the same frames,
two machines with the same tuple hold the same tuple, have reported the same outcome and hand over the same map, whatever
else their states hold. -/
def Obligations.RunsDependOnTupleAndFramesOnly : Prop :=
  ∀ (s s' : State) (m : Memory) (ms : List Memory), s.tuple = s'.tuple →
    ∃ t t', runFrames s (m :: ms) = .next t ∧ runFrames s' (m :: ms) = .next t' ∧
      t.tuple = t'.tuple ∧ t.outcome = t'.outcome ∧ t.tmap = t'.tmap

/-- R31 and R39: four bulk reads of 16224 bytes, put into FRAME in issue order, fill it with their concatenation. The
address 16224 i is R31's; that a bulk read reaches the model as one host write is log 22 (DEDUCED). -/
def Obligations.BulkReadsFillFrame : Prop :=
  ∀ (s : State) (c0 c1 c2 c3 : List Byte),
    c0.length = 16224 → c1.length = 16224 → c2.length = 16224 → c3.length = 16224 → s.busy = false →
    s.host = [bulkRead Config.tdec 0 c0, bulkRead Config.tdec 1 c1, bulkRead Config.tdec 2 c2,
      bulkRead Config.tdec 3 c3] →
    ∃ t, core.run 4 s = .next t ∧ t.tuple = s.tuple ∧ t.host = [] ∧
      ∀ a, a < 64896 → some (t.frame.read a) = (c0 ++ c1 ++ c2 ++ c3)[a]?

/-- R42 and R144: the host must not write FRAME during an operation, and a model refuses the run (U3). The other two
clauses are the model's: between operations a write of any length inside the space of R30 lands, byte by byte, and every
other byte keeps what it held (log 22, DEDUCED from R142); a write that reaches past address 64895, of which the spec says
nothing, is a fault that reports the last address it would reach (log 14, DESIGN CHOICE). -/
def Obligations.HostWritesOfFrame : Prop :=
  ∀ (s : State) (a : Nat) (bytes : List Byte) (rest : List HostMove), s.host = .write a bytes :: rest →
    if s.busy = true then step s = .refused .frameWriteWhileBusy
    else if 64896 < a + bytes.length then step s = .fault (.frameAddress (a + bytes.length - 1))
    else
      ∃ t, step s = .next t ∧ t = { s with host := rest, frame := t.frame } ∧
        ∀ x, t.frame.read x = if a ≤ x ∧ x < a + bytes.length then bytes.getD (x - a) 0 else s.frame.read x

/-- R42 and R19: FRAME is written by the host only: a step after which some byte of FRAME differs was the host's write. -/
def Obligations.OnlyTheHostWritesFrame : Prop :=
  ∀ s t : State, step s = .next t → (∃ a, t.frame.read a ≠ s.frame.read a) →
    ∃ a bytes rest, s.host = .write a bytes :: rest

/-! ### Encoding and operand assembly (spec/30_encoding.md) -/

/-- Every operation, encoded over any operand bytes, decodes to itself; no other byte of the frame is touched and the
canonical form is kept (R51, R57). -/
def Obligations.DecodeOfEncodedFrame : Prop :=
  ∀ (i : Instr) (m : Memory), decode (encodeFrame i m) = i ∧
    (∀ a, a ≠ 20 → (encodeFrame i m).read a = m.read a) ∧ (m.wf = true → (encodeFrame i m).wf = true)

/-- R57: the status byte alone chooses: 1 is CAL, 3 is NORM, every other value UNREC; the ten rows of the table match each
status value exactly once, and the decoded operation is of the row that matches and encodes to the same status. -/
def Obligations.StatusSelectsOperation : Prop :=
  ∀ m : Memory,
    mnemonicOf (decode m) = (if m.read 20 = 1 then "CAL" else if m.read 20 = 3 then "NORM" else "UNREC") ∧
      encode (decode m) = m.read 20 ∧
      (opcodeRows.filter (fun r => r.selects (m.read 20))).length = 1 ∧
      (∃ r, opcodeRows[rowIndex (decode m)]? = some r ∧ r.selects (m.read 20) = true ∧
        r.mnemonic = mnemonicOf (decode m))

/-- R50 and R57 on bytes: exactly one whole frame decodes, by its byte 20; any other length is rejected by name. -/
def Obligations.OnlyWholeFramesDecode : Prop :=
  ∀ bytes : List Byte,
    (bytes.length = 64896 → decodeBytes bytes = .ok (decodeStatus (bytes.getD 20 0))) ∧
      (bytes.length ≠ 64896 → decodeBytes bytes = .error (.notOneFrame bytes.length))

/-- R57 and R52 on single words: some words of the table and their one-bit neighbours. -/
def Obligations.SampleWordsDecode : Prop :=
  decodeTableWord 8 0b00000001 = some .cal ∧ decodeTableWord 8 0b00000011 = some .norm ∧
    decodeTableWord 8 0b00000000 = some .unrec00 ∧ decodeTableWord 8 0b00000010 = some .unrec02 ∧
    decodeTableWord 8 0b00000111 = some (.unrec04 0b11) ∧ decodeTableWord 8 0b00001011 = some (.unrec08 0b011) ∧
    decodeTableWord 8 0b00010011 = some (.unrec10 0b0011) ∧ decodeTableWord 8 0b00100001 = some (.unrec20 0b00001) ∧
    decodeTableWord 8 0b01000011 = some (.unrec40 0b000011) ∧ decodeTableWord 8 0b10000001 = some (.unrec80 0b0000001)

/-- R54: every element of the raw grid is the little-endian word at its row-major place, read as two's complement. -/
def Obligations.RawGridElement : Prop :=
  ∀ (m : Memory) (r c : Nat), r < 156 → c < 208 →
    rawPixel Config.tdec m r c = (m.read (2 * (208 * r + c) + 1) ++ m.read (2 * (208 * r + c))).toInt ∧
      -32768 ≤ rawPixel Config.tdec m r c ∧ rawPixel Config.tdec m r c ≤ 32767

/-- R55: the working grid is the raw grid at the same coordinates, 155 rows of 206; what the crop drops takes no part in
CAL, in the mean, in DEAD or in TMAP. -/
def Obligations.CroppedCellsTakeNoPart : Prop :=
  (∀ m : Memory, (workingGrid Config.tdec m).length = 31930 ∧
    ∀ r c, r < 155 → c < 206 → (workingGrid Config.tdec m)[206 * r + c]? = some (rawPixel Config.tdec m r c)) ∧
  ∀ (s : State) (m m' : Memory), SameNeeded m m' →
    gridMean Config.tdec (workingGrid Config.tdec m) = gridMean Config.tdec (workingGrid Config.tdec m') ∧
      decode m = decode m' ∧
      ∃ t t', exec (decode m) { s with frame := m } = .next t ∧ exec (decode m') { s with frame := m' } = .next t' ∧
        t.cal = t'.cal ∧ t.dead = t'.dead ∧ t.tmap = t'.tmap ∧ t.outcome = t'.outcome

/-- R56: the pixel that holds the status byte: its low byte is the status, and between a CAL frame and a NORM frame it
differs by `256 (h_n − h_c) + 2`. -/
def Obligations.StatusPixelHoldsOpcode : Prop :=
  (∀ m : Memory, rawPixel Config.tdec m 0 10 = (m.read 21 ++ m.read 20).toInt ∧
    (decode m = .cal → rawPixel Config.tdec m 0 10 % 256 = 1) ∧
    (decode m = .norm → rawPixel Config.tdec m 0 10 % 256 = 3)) ∧
  ∀ mc mn : Memory, decode mc = .cal → decode mn = .norm →
    rawPixel Config.tdec mn 0 10 - rawPixel Config.tdec mc 0 10
      = 256 * ((mn.read 21).toInt - (mc.read 21).toInt) + 2

/-- The one-pass grid is the grid of R54 and R55, for every FRAME contents in canonical form (a refinement of the model's
own). -/
def Obligations.DenseGridIsWorkingGrid : Prop :=
  ∀ m : Memory, m.wf = true → denseGrid Config.tdec m = workingGrid Config.tdec m

/-- R60 and R61: from idle, the three host moves of a line that is a frame, under its general name or under a mnemonic,
run the operation of its status on FRAME filled with its byte image (which is `FrameImageFollowsNotation`'s subject). That
a frame line is three moves of the host is the model's (log 1). -/
def Obligations.FrameLineRunsItsOperation : Prop :=
  ∀ (s : State) (x : ProgramLine) (l : FrameLine) (rest : List HostMove), s.busy = false →
    lineFrame Config.tdec x = some l → s.host = lineMoves Config.tdec x ++ rest →
    ∃ u, core.run 3 s = exec (decodeStatus l.status) u ∧ u.tuple = s.tuple ∧ u.host = rest ∧ u.busy = true ∧
      ∀ a, a < 64896 → some (u.frame.read a) = (frameImage Config.tdec l)[a]?

/-! ### The operations (spec/40_classify.md, spec/41_calibrate.md, spec/42_decode.md) -/

/-- R67: UNREC, each of its eight rows: outcome UNRECOGNIZED, no map, every piece of state and every byte of FRAME
unchanged. -/
def Obligations.UnrecChangesNothing : Prop :=
  ∀ s : State,
    let t : State := { s with busy := false, done := true, outcome := some .unrecognized, tmap := none }
    exec .unrec00 s = .next t ∧ exec .unrec02 s = .next t ∧ (∀ f, exec (.unrec04 f) s = .next t) ∧
      (∀ f, exec (.unrec08 f) s = .next t) ∧ (∀ f, exec (.unrec10 f) s = .next t) ∧
      (∀ f, exec (.unrec20 f) s = .next t) ∧ (∀ f, exec (.unrec40 f) s = .next t) ∧
      (∀ f, exec (.unrec80 f) s = .next t)

/-- R75: CAL completes in every state. It always stores the converted working grid and sets CAL_VALID; with `DP_DONE = 0`
it also stores the whole mask by the threshold of the frame's own mean and sets DP_DONE, with `DP_DONE = 1` it leaves both
as they were; it reports CAL_UPDATED and makes no map. -/
def Obligations.CalCompletes : Prop :=
  ∀ s : State, ∃ t, exec .cal s = .next t ∧
    t.calValid = true ∧ t.dpDone = true ∧ t.outcome = some .calUpdated ∧ t.tmap = none ∧
    t.busy = false ∧ t.done = true ∧
    (∀ r c, r < 155 → c < 206 → t.calAt r c = some (i2f (rawPixel Config.tdec s.frame r c))) ∧
    (s.dpDone = true → t.dead = s.dead) ∧
    (s.dpDone = false →
      let S : Int := ∑ r ∈ Finset.range 155, ∑ c ∈ Finset.range 206, rawPixel Config.tdec s.frame r c
      let mean := fdiv (i2f S) (i2f 31930)
      let thr := fmul 0x3FD3333333333333#64 mean
      ∀ r c, r < 155 → c < 206 → t.deadBit r c = some (flt (i2f (rawPixel Config.tdec s.frame r c)) thr))

/-- What CAL leaves unchanged: every byte of FRAME, the host's own moves and reads, and, when `DP_DONE = 1`, the mask and
its flag (R75, R82). -/
def Obligations.CalFrame : Prop :=
  ∀ s t : State, exec .cal s = .next t →
    (∀ a, t.frame.read a = s.frame.read a) ∧ t.host = s.host ∧ t.lastRead = s.lastRead ∧
      t.freeCount = s.freeCount ∧ (s.dpDone = true → t.dead = s.dead ∧ t.dpDone = s.dpDone)

/-- R76: the capture is exact, replaces the whole store, and depends on nothing of the calibration before. -/
def Obligations.CaptureReplacesStore : Prop :=
  ∀ s s' : State, s.frame = s'.frame → ∃ t t' l, exec .cal s = .next t ∧ exec .cal s' = .next t' ∧
    t.cal = some l ∧ t'.cal = some l ∧ t.calValid = true ∧ l.length = 31930 ∧
    ∀ r c, r < 155 → c < 206 → ∃ x, l[206 * r + c]? = some x ∧ isFinite x = true ∧
      units x = rawPixel Config.tdec s.frame r c * 2 ^ 1074

/-- R77: the sum of a frame is within the stated range, its conversion is exact, and adding the pixels one by one in
binary64 gives the same value in any order. -/
def Obligations.SumIsExactInAnyOrder : Prop :=
  ∀ m : Memory,
    -1046282240 ≤ gridSum (workingGrid Config.tdec m) ∧ gridSum (workingGrid Config.tdec m) ≤ 1046250310 ∧
      units (i2f (gridSum (workingGrid Config.tdec m))) = gridSum (workingGrid Config.tdec m) * 2 ^ 1074 ∧
      ∀ l : List Int, l.Perm (workingGrid Config.tdec m) →
        l.foldl (fun acc v => fadd acc (i2f v)) 0#64 = i2f (gridSum (workingGrid Config.tdec m))

/-- R80: the corner cases (a) to (d) of the dead test, on every grid of 31930 16-bit values: a uniform positive grid and
the zero grid flag nothing, a negative sum flags every pixel at or below the mean, and a zero sum flags exactly the
negative pixels. -/
def Obligations.DeadTestCornerCases : Prop :=
  ∀ g : List Int, g.length = 31930 → (∀ v ∈ g, -32768 ≤ v ∧ v ≤ 32767) →
    (∀ v, 0 ≤ v → (∀ x ∈ g, x = v) → ∀ b ∈ deadMask Config.tdec g, b = false) ∧
      (gridSum g < 0 → ∀ v ∈ g, 31930 * v ≤ gridSum g → isDead (deadThreshold Config.tdec g) v = true) ∧
      (gridSum g = 0 → deadThreshold Config.tdec g = 0#64 ∧
        ∀ v ∈ g, isDead (deadThreshold Config.tdec g) v = decide (v < 0))

/-- R81, which the spec derives from R77 and R79 and marks as its own result: for every frame the test of R79 is a
comparison of integers of 36 bits. -/
def Obligations.DeadTestIsIntegerTest : Prop :=
  ∀ (m : Memory) (i : Nat) (v : Int), (workingGrid Config.tdec m)[i]? = some v →
    (deadMask Config.tdec (workingGrid Config.tdec m))[i]?
        = some (decide (319300 * v < 3 * gridSum (workingGrid Config.tdec m))) ∧
      -2 ^ 35 ≤ 319300 * v ∧ 319300 * v < 2 ^ 35 ∧
      -2 ^ 35 ≤ 3 * gridSum (workingGrid Config.tdec m) ∧ 3 * gridSum (workingGrid Config.tdec m) < 2 ^ 35

/-- R82: after a first CAL frame, later CAL frames replace CAL and leave DEAD as the first one set it. -/
def Obligations.LaterCalibrationsKeepMask : Prop :=
  ∀ (s : State) (m0 m1 : Memory), s.dpDone = false → decode m0 = .cal → decode m1 = .cal →
    ∃ t, runFrames s [m0, m1] = .next t ∧ t.cal = some ((workingGrid Config.tdec m1).map i2f) ∧
      t.dead = some (deadMask Config.tdec (workingGrid Config.tdec m0)) ∧ t.dpDone = true

/-- R90: NORM completes in every state with `CAL_VALID = 1`: it reports TEMPERATURE and hands over the whole map, each
element `fadd(fmul(fsub(P, CAL), K_GAIN), K_OFFSET)`; CAL, DEAD and both flags are unchanged. -/
def Obligations.NormCompletes : Prop :=
  ∀ s : State, s.calValid = true → ∃ t, exec .norm s = .next t ∧
    t.outcome = some .temperature ∧ t.tuple = s.tuple ∧ t.busy = false ∧ t.done = true ∧
    (∃ map, t.tmap = some map ∧ map.length = 31930) ∧
    (∀ l, s.cal = some l → l.length = 31930 → ∀ r c, r < 155 → c < 206 → ∀ x, l[206 * r + c]? = some x →
      t.mapAt r c = some (fadd (fmul (fsub (i2f (rawPixel Config.tdec s.frame r c)) x) 0x3F925460AA64C2F8#64)
        0x4045000000000000#64))

/-- R91: with `CAL_VALID = 0` NORM raises NO_CALIBRATION: no state changes, no map is produced, whatever the frame. -/
def Obligations.NormWithoutCalibration : Prop :=
  ∀ s : State, s.calValid = false →
    exec .norm s = .next { s with busy := false, done := true, outcome := some .noCalibration, tmap := none }

/-- What NORM and UNREC leave unchanged (R22 (iv)): the four pieces of state, every byte of FRAME, the host's own moves
and reads. -/
def Obligations.NormAndUnrecFrame : Prop :=
  ∀ (i : Instr) (s t : State), i ≠ .cal → exec i s = .next t →
    t.calValid = s.calValid ∧ t.dpDone = s.dpDone ∧ t.cal = s.cal ∧ t.dead = s.dead ∧
      (∀ a, t.frame.read a = s.frame.read a) ∧ t.host = s.host ∧ t.lastRead = s.lastRead ∧ t.freeCount = s.freeCount

/-- R92 and R93: the difference of two 16-bit integers is exact, does not wrap, and is `+0.0` for equal operands. -/
def Obligations.DifferenceIsExact : Prop :=
  ∀ p c : Int, -32768 ≤ p → p ≤ 32767 → -32768 ≤ c → c ≤ 32767 →
    fsub (i2f p) (i2f c) = i2f (p - c) ∧ units (fsub (i2f p) (i2f c)) = (p - c) * 2 ^ 1074 ∧
      -65535 ≤ p - c ∧ p - c ≤ 65535 ∧ (p = c → fsub (i2f p) (i2f c) = 0#64)

/-- R94: from any state, a CAL frame and then a NORM frame give at every coordinate
`T(D) = RN(RN(D × 644915466639455 / 2^55) + 42)` of the difference of the two frames there (`RN` on units of 2^-1074). -/
def Obligations.CalThenNormGivesTransform : Prop :=
  ∀ (s : State) (mc mn : Memory), decode mc = .cal → decode mn = .norm →
    ∃ t, runFrames s [mc, mn] = .next t ∧ t.outcome = some .temperature ∧
      ∀ r c, r < 155 → c < 206 →
        let d := rawPixel Config.tdec mn r c - rawPixel Config.tdec mc r c
        let prod := roundQuot (d * 644915466639455 * 2 ^ 1074) (2 ^ 55)
        t.mapAt r c = some (roundQuot (units prod + 42 * 2 ^ 1074) 1)

/-- R95: over all differences the product and the result stay between their extreme values, the result is a normal number
(never zero, subnormal, infinite or a NaN) and non-decreasing in the difference, and the table's values hold. -/
def Obligations.TransformRangeAndTable : Prop :=
  (∀ d : Int, -65535 ≤ d → d ≤ 65535 →
    units (fmul (i2f (-65535)) Config.tdec.kGain) ≤ units (fmul (i2f d) Config.tdec.kGain) ∧
      units (fmul (i2f d) Config.tdec.kGain) ≤ units (fmul (i2f 65535) Config.tdec.kGain) ∧
      isFinite (celsiusOfDiff Config.tdec d) = true ∧ expField (celsiusOfDiff Config.tdec d) ≠ 0 ∧
      units (celsiusOfDiff Config.tdec d) ≠ 0) ∧
  (∀ d e : Int, -65535 ≤ d → d ≤ e → e ≤ 65535 →
    units (celsiusOfDiff Config.tdec d) ≤ units (celsiusOfDiff Config.tdec e)) ∧
  celsiusOfDiff Config.tdec 0 = 0x4045000000000000#64 ∧ celsiusOfDiff Config.tdec 100 = 0x4045E51EB851EB85#64 ∧
  celsiusOfDiff Config.tdec 1 = 0x4045024A8C154C98#64 ∧ celsiusOfDiff Config.tdec (-1) = 0x4044FDB573EAB368#64 ∧
  celsiusOfDiff Config.tdec 93 = 0x4045D514E3BCD35A#64 ∧ celsiusOfDiff Config.tdec 65535 = 0x4092FC4E56041893#64 ∧
  celsiusOfDiff Config.tdec (-65535) = 0xC091AC4E56041893#64 ∧
  fmul (i2f 0) Config.tdec.kGain = 0#64 ∧ fmul (i2f 100) Config.tdec.kGain = 0x3FFCA3D70A3D70A4#64 ∧
  fmul (i2f 93) Config.tdec.kGain = 0x3FFAA29C779A6B50#64

/-- R96: an element of the map depends on its own pixel and its own calibration element only. -/
def Obligations.LanesAreIndependent : Prop :=
  ∀ (s s' t t' : State) (l l' : List F64) (r c : Nat), r < 155 → c < 206 →
    s.calValid = true → s'.calValid = true → s.cal = some l → s'.cal = some l' → l.length = 31930 →
    l'.length = 31930 → l[206 * r + c]? = l'[206 * r + c]? →
    rawPixel Config.tdec s.frame r c = rawPixel Config.tdec s'.frame r c →
    exec .norm s = .next t → exec .norm s' = .next t' → t.mapAt r c = t'.mapAt r c

/-- R97 (a) and (b): the same NORM frame twice gives the same state and map as once, and the map does not depend on the
mask. -/
def Obligations.NormRepeatsAndIgnoresMask : Prop :=
  (∀ (s : State) (m : Memory), decode m = .norm → runFrames s [m, m] = runFrames s [m]) ∧
  ∀ (s : State) (b : Bool) (d : Option (List Bool)), ∃ t t', exec .norm s = .next t ∧
    exec .norm { s with dpDone := b, dead := d } = .next t' ∧ t'.tmap = t.tmap ∧ t'.outcome = t.outcome

/-! ### Outcomes (spec/60_exceptions.md) -/

/-- R115: every operation ends with exactly one outcome, by the table: its condition, its code, the state it may change and
whether it hands over a map. -/
def Obligations.OutcomeOfEveryOperation : Prop :=
  (FrameOutcome.calUpdated.code = 0 ∧ FrameOutcome.temperature.code = 1 ∧ FrameOutcome.unrecognized.code = 2 ∧
    FrameOutcome.noCalibration.code = 3) ∧
  ∀ s : State, ∃ t, exec (decode s.frame) s = .next t ∧ t.done = true ∧ t.busy = false ∧
    (statusOf s.frame = 1 → t.outcome = some .calUpdated ∧ t.tmap = none ∧
      (s.dpDone = true → t.dead = s.dead ∧ t.dpDone = s.dpDone)) ∧
    (statusOf s.frame = 3 → s.calValid = true →
      t.outcome = some .temperature ∧ t.tmap.isSome = true ∧ t.tuple = s.tuple) ∧
    (statusOf s.frame = 3 → s.calValid = false →
      t.outcome = some .noCalibration ∧ t.tmap = none ∧ t.tuple = s.tuple) ∧
    (statusOf s.frame ≠ 1 → statusOf s.frame ≠ 3 →
      t.outcome = some .unrecognized ∧ t.tmap = none ∧ t.tuple = s.tuple)

/-- R116: once CAL_VALID is 1, no sequence of frames ends with NO_CALIBRATION. -/
def Obligations.NoCalibrationOnlyBeforeFirstCal : Prop :=
  ∀ (s : State) (m : Memory) (ms : List Memory), s.calValid = true →
    ∃ t, runFrames s (m :: ms) = .next t ∧ t.outcome ≠ some .noCalibration

/-- R122: after every operation the machine holds a map exactly when the outcome is TEMPERATURE, whatever the buffer held
before. -/
def Obligations.MapOnlyWithTemperature : Prop :=
  ∀ (i : Instr) (s : State), ∃ t, exec i s = .next t ∧
    (t.tmapValid = true ↔ t.outcome = some .temperature) ∧ (t.tmap.isSome = true ↔ t.tmapValid = true)

/-! ### Reset, host hazards, the two agents (spec/70_reset_and_hazards.md, spec/20_memory.md) -/

/-- R136: the state right after reset. R136 gives the flags, STATUS, DPC_EN, `busy`, `done` and `tmap_valid`; that CAL,
DEAD, the outcome and the map are `none` is the model's choice for what R136 leaves unspecified (logs 5, 6, 7). -/
def Obligations.ResetValues : Prop :=
  State.reset.calValid = false ∧ State.reset.dpDone = false ∧ State.reset.cal = none ∧ State.reset.dead = none ∧
    State.reset.status = 0b00#2 ∧ State.reset.dpcEn = false ∧ State.reset.busy = false ∧ State.reset.done = false ∧
    State.reset.outcome = none ∧ State.reset.tmapValid = false ∧ State.reset.tmap = none

/-- The reset event, between operations or during one. R135 and R136 give the cleared flags, STATUS, `busy`, `done` and
`tmap_valid` at 0, and FRAME untouched. That CAL, DEAD, the outcome and the map then are `none` is the model's choice for
what R136 leaves unspecified (logs 5, 6, 7); that `rst` may come during an operation is the model's taking of a move that
R138 lets it leave out (log 13); that it reaches the machine from the host's list is log 1. -/
def Obligations.ResetEventAtAnyTime : Prop :=
  ∀ (s : State) (rest : List HostMove), s.host = .rst :: rest → ∃ t, step s = .next t ∧
    t.calValid = false ∧ t.dpDone = false ∧ t.cal = none ∧ t.dead = none ∧ t.status = 0b00#2 ∧ t.busy = false ∧
    t.done = false ∧ t.outcome = none ∧ t.tmapValid = false ∧ t.tmap = none ∧ t.frame = s.frame ∧ t.host = rest

/-- R12, R13, R22 (iii) and R135: a step that clears CAL_VALID or DP_DONE, or that changes the mask while `DP_DONE = 1`, is
the reset event. -/
def Obligations.OnlyResetClearsFlags : Prop :=
  ∀ s t : State, step s = .next t →
    (s.calValid = true ∧ t.calValid = false) ∨ (s.dpDone = true ∧ (t.dpDone = false ∨ t.dead ≠ s.dead)) →
    ∃ rest, s.host = .rst :: rest

/-- R22 (ii): whatever came before, after a CAL frame and any later frames that are not CAL frames, CAL is the converted
working grid of that CAL frame. -/
def Obligations.CalibrationIsLatestCalFrame : Prop :=
  ∀ (s : State) (before after : List Memory) (m : Memory), decode m = .cal → (∀ x ∈ after, decode x ≠ .cal) →
    ∃ t, runFrames s (before ++ m :: after) = .next t ∧ t.calValid = true ∧
      t.cal = some ((workingGrid Config.tdec m).map i2f)

/-- R22 (iii) and R78: from `DP_DONE = 0`, the mask is that of the first CAL frame, whatever frames follow it; frames
before it that are not CAL frames do not use up the one shot. -/
def Obligations.MaskIsFirstCalFrame : Prop :=
  ∀ (s : State) (before after : List Memory) (m : Memory), s.dpDone = false → (∀ x ∈ before, decode x ≠ .cal) →
    decode m = .cal →
    ∃ t, runFrames s (before ++ m :: after) = .next t ∧ t.dpDone = true ∧
      t.dead = some (deadMask Config.tdec (workingGrid Config.tdec m))

/-- R43 and R143: `start` is honoured only when `busy = 0`; while `busy = 1` it starts nothing and disturbs nothing. That
an accepted start sets `done` to 0 is the model's deduction from R43 and R146 (log 16, DEDUCED), not a sentence of either;
that a `start` while busy is a move the run goes on from is log 12. -/
def Obligations.StartOnlyWhenIdle : Prop :=
  ∀ (s : State) (rest : List HostMove), s.host = .start :: rest →
    (s.busy = false → ∃ t, step s = .next t ∧ t.busy = true ∧ t.done = false ∧ t.tuple = s.tuple ∧
      t.frame = s.frame ∧ t.host = rest) ∧
    (s.busy = true → step s = .next { s with host := rest })

/-- R38, R65 and R69: on TDEC's turn a started operation is the operation its frame decodes to, run as `exec` runs it, with
nothing added but that an `idle` move is taken from the host's list (the model's own, log 1; one turn runs the whole
operation, log 19); without a started operation nothing changes. -/
def Obligations.StepRunsDecodedOperation : Prop :=
  ∀ s : State,
    (s.host = [] → s.busy = true → step s = exec (decode s.frame) s) ∧
      (s.host = [] → s.busy = false → step s = .next s) ∧
      (∀ rest, s.host = .idle :: rest → s.busy = true →
        step s = exec (decode s.frame) { s with host := rest }) ∧
      (∀ rest, s.host = .idle :: rest → s.busy = false → step s = .next { s with host := rest })

/-- R148 asks that every operation that starts ends, after a finite time, with `done`. The bound stated here, TDEC's very
next turn, is the model's choice (log 19, DESIGN CHOICE: a started operation is the one atomic transition of R38). -/
def Obligations.StartedOperationEnds : Prop :=
  ∀ s : State, s.busy = true → s.host = [] →
    ∃ t, step s = .next t ∧ t.busy = false ∧ t.done = true ∧ t.outcome.isSome = true

/-- The invariant of `StepKeepsInvariant` holds right after reset. -/
def Obligations.ResetMeetsInvariant : Prop := State.reset.Inv

/-- Every step keeps the invariant: the two flags agree, CAL holds a whole grid of 16-bit integers exactly while CAL_VALID
is 1 (R17), DEAD a whole mask exactly while DP_DONE is 1, a map is held exactly with TEMPERATURE, FRAME stays canonical
and inside its space, and a running operation shows no outcome. That an absent store, mask or map is `none` is the model's
choice (logs 5, 6, 7), and that a running operation shows neither `done` nor an outcome its deduction (log 16). -/
def Obligations.StepKeepsInvariant : Prop := ∀ s t : State, s.Inv → step s = .next t → t.Inv

/-! ### The frame notation (spec/30_encoding.md R59 to R61) -/

/-- R59, step by step: the byte image of a well-formed frame line is what its four steps build: every word the fill; each
`px`, left to right, sets word `208 r + c`; the words laid out low byte first; byte 20 set to the status; byte 21 set to
`b21` if it is given and else left as it was. -/
def Obligations.FrameImageFollowsNotation : Prop :=
  ∀ l : FrameLine, l.wf Config.tdec = true →
    let words := l.px.foldl (fun ws x => ws.set (208 * x.row + x.col) x.value) (List.replicate 32448 l.fill)
    let bytes := words.flatMap fun w => [w.extractLsb' 0 8, w.extractLsb' 8 8]
    let withStatus := bytes.set 20 l.status
    frameImage Config.tdec l =
        (match l.b21 with
          | some b => withStatus.set 21 b
          | none => withStatus) ∧
      (frameImage Config.tdec l).length = 64896

/-- R60 and R61: `CAL <rest>` and `NORM <rest>` stand for the frame lines with status 1 and 3, `UNREC status=<u8> <rest>`
for one with another status, and a disassembler prints those mnemonics back; `RESET` is the reset move, `EXPECT` a comment
and no move; a program is its lines top to bottom. That a frame is filled, started and left alone in three host moves is
the model's (log 1). -/
def Obligations.ProgramLinesGiveTheirMoves : Prop :=
  (∀ l : FrameLine, lineMoves Config.tdec (.frame l) = [.write 0 (frameImage Config.tdec l), .start, .idle]) ∧
    (∀ fill b21 px, lineMoves Config.tdec (.cal fill b21 px) = lineMoves Config.tdec (.frame ⟨1, fill, b21, px⟩)) ∧
    (∀ fill b21 px, lineMoves Config.tdec (.norm fill b21 px) = lineMoves Config.tdec (.frame ⟨3, fill, b21, px⟩)) ∧
    (∀ status fill b21 px,
      lineMoves Config.tdec (.unrec status fill b21 px) = lineMoves Config.tdec (.frame ⟨status, fill, b21, px⟩)) ∧
    (∀ status fill b21 px, (ProgramLine.unrec status fill b21 px).wf Config.tdec = true →
      status ≠ 1 ∧ status ≠ 3 ∧ mnemonicOf (decodeStatus status) = "UNREC") ∧
    mnemonicOf (decodeStatus 1) = "CAL" ∧ mnemonicOf (decodeStatus 3) = "NORM" ∧
    lineMoves Config.tdec .reset = [.rst] ∧ (∀ text, lineMoves Config.tdec (.expect text) = []) ∧
    programMoves Config.tdec [] = [] ∧
    ∀ x prog, programMoves Config.tdec (x :: prog) = lineMoves Config.tdec x ++ programMoves Config.tdec prog

/-- R61: a program of frame lines runs top to bottom, each step ended before the next starts: from idle its host moves (three
a line, log 1) end in the tuple, the outcome and the map that its images, presented one after another, give. -/
def Obligations.ProgramRunsTopToBottom : Prop :=
  ∀ (s : State) (prog : List FrameLine), s.busy = false →
    s.host = programMoves Config.tdec (prog.map ProgramLine.frame) →
    ∃ t u, core.run (3 * prog.length) s = .next t ∧
      runFrames s (prog.map fun l => Memory.cells 0 (frameImage Config.tdec l)) = .next u ∧
      t.host = [] ∧ t.busy = false ∧ t.tuple = u.tuple ∧ t.outcome = u.outcome ∧ t.tmap = u.tmap
end

