-- ==== Sys2Proof/Laws/Memory.lean ====
section
/-! SUPPORT. The laws of the FRAME space: what a read gives after a write, and that every operation keeps the canonical
form and the bounds. -/

namespace Sys2Proof.Machine

theorem lookup_cells (bytes : List Byte) : ∀ a x, (Memory.cells a bytes).read x =
    if a ≤ x then bytes.getD (x - a) unlistedByte else unlistedByte := by
  induction bytes with
  | nil => intro a x; simp [Memory.cells, Memory.read]
  | cons b rest ih =>
    intro a x
    have hrest := ih (a + 1) x
    unfold Memory.cells
    by_cases hx : x = a
    · subst hx
      have : ¬ x + 1 ≤ x := by omega
      by_cases hb : b = unlistedByte
      · simp only [hb, if_true]
        rw [hrest]; simp [this]
      · simp [hb, Memory.read]
    · have hne : (x == a) = false := by simpa using hx
      have key : (if a + 1 ≤ x then rest.getD (x - (a + 1)) unlistedByte else unlistedByte)
          = if a ≤ x then (b :: rest).getD (x - a) unlistedByte else unlistedByte := by
        by_cases hle : a ≤ x
        · obtain ⟨k, hk⟩ : ∃ k, x - a = k + 1 := ⟨x - a - 1, by omega⟩
          have h1 : a + 1 ≤ x := by omega
          have h2 : x - (a + 1) = k := by omega
          simp [hle, h1, hk, h2]
        · have h1 : ¬ a + 1 ≤ x := by omega
          simp [hle, h1]
      rw [← key, ← hrest]
      by_cases hb : b = unlistedByte
      · simp [hb]
      · simp [hb, Memory.read, List.lookup, hne]

theorem lookup_append (m n : Memory) (x : Nat) : (m ++ n).lookup x = (m.lookup x).or (n.lookup x) := by
  induction m with
  | nil => simp
  | cons c rest ih =>
    obtain ⟨a, b⟩ := c
    by_cases h : x = a
    · subst h; simp [List.lookup]
    · have : (x == a) = false := by simpa using h
      simp [List.lookup, this, ih]

theorem lookup_filter (m : Memory) (q : Nat → Bool) (x : Nat) :
    (m.filter (fun c => q c.1)).lookup x = if q x then m.lookup x else none := by
  induction m with
  | nil => simp
  | cons c rest ih =>
    obtain ⟨a, b⟩ := c
    by_cases h : x = a
    · subst h
      by_cases hq : q x = true
      · simp [List.filter, hq, List.lookup]
      · simp only [Bool.not_eq_true] at hq
        simp [List.filter, hq, ih]
    · have hne : (x == a) = false := by simpa using h
      by_cases hq : q a = true
      · simp [List.filter, hq, List.lookup, hne, ih]
      · simp only [Bool.not_eq_true] at hq
        simp [List.filter, hq, List.lookup, hne, ih]

theorem lookup_cells_none (bytes : List Byte) : ∀ a x, (x < a ∨ a + bytes.length ≤ x) →
    (Memory.cells a bytes).lookup x = none := by
  induction bytes with
  | nil => intro a x _; rfl
  | cons b rest ih =>
    intro a x h
    have hr := ih (a + 1) x (by simp only [List.length_cons] at h; omega)
    have hne : (x == a) = false := by
      simp only [List.length_cons] at h
      simpa using (show x ≠ a by omega)
    unfold Memory.cells
    split
    · exact hr
    · simp [List.lookup, hne, hr]

/-- A read after a write: the byte written inside the range, the old byte outside it. -/
theorem Memory.read_writeBytes (m : Memory) (a : Nat) (bytes : List Byte) (x : Nat) :
    (m.writeBytes a bytes).read x =
      if a ≤ x ∧ x < a + bytes.length then bytes.getD (x - a) unlistedByte else m.read x := by
  have hc := lookup_cells bytes a x
  unfold Memory.writeBytes Memory.read
  rw [lookup_append, lookup_append, lookup_filter m (fun y => decide (y < a)),
    lookup_filter m (fun y => decide (a + bytes.length ≤ y))]
  by_cases h1 : x < a
  · have h2 : ¬ (a ≤ x ∧ x < a + bytes.length) := by omega
    have h3 : ¬ (a + bytes.length ≤ x) := by omega
    simp [h1, h2, h3, lookup_cells_none bytes a x (Or.inl h1)]
  · by_cases h3 : a + bytes.length ≤ x
    · have h2 : ¬ (a ≤ x ∧ x < a + bytes.length) := by omega
      simp [h1, h2, h3, lookup_cells_none bytes a x (Or.inr h3)]
    · have h2 : a ≤ x ∧ x < a + bytes.length := by omega
      unfold Memory.read at hc
      simp only [h1, h2, h3, decide_false, if_false, and_self, if_true, Option.or_none, Option.none_or,
        Bool.false_eq_true]
      simpa [h2.1] using hc

/-- A read after a write of one byte. -/
theorem Memory.read_write (m : Memory) (a : Nat) (b : Byte) (x : Nat) :
    (m.write a b).read x = if x = a then b else m.read x := by
  unfold Memory.write
  rw [Memory.read_writeBytes]
  by_cases h : x = a
  · subst h; simp
  · rw [if_neg (by simp only [List.length_singleton]; omega), if_neg h]

theorem wfFrom_mono {lo lo' : Nat} (h : lo' ≤ lo) : ∀ m, Memory.wfFrom lo m = true → Memory.wfFrom lo' m = true
  | [], _ => rfl
  | (a, b) :: rest, hm => by
    simp only [Memory.wfFrom, Bool.and_eq_true, decide_eq_true_eq] at hm ⊢
    exact ⟨⟨by omega, hm.1.2⟩, hm.2⟩

theorem wfFrom_filter (q : Host.Cell → Bool) : ∀ (m : Memory) (lo : Nat), Memory.wfFrom lo m = true →
    Memory.wfFrom lo (m.filter q) = true := by
  intro m
  induction m with
  | nil => intro lo _; rfl
  | cons c rest ih =>
    obtain ⟨a, b⟩ := c
    intro lo hm
    simp only [Memory.wfFrom, Bool.and_eq_true, decide_eq_true_eq] at hm
    have hr := ih (a + 1) hm.2
    rw [List.filter_cons]
    split
    · simp only [Memory.wfFrom, Bool.and_eq_true, decide_eq_true_eq]
      exact ⟨hm.1, hr⟩
    · exact wfFrom_mono (by omega) _ hr

theorem wfFrom_filter_ge (hi : Nat) : ∀ (m : Memory) (lo : Nat), Memory.wfFrom lo m = true →
    Memory.wfFrom hi (m.filter (fun c => decide (hi ≤ c.1))) = true := by
  intro m
  induction m with
  | nil => intro lo _; rfl
  | cons c rest ih =>
    obtain ⟨a, b⟩ := c
    intro lo hm
    simp only [Memory.wfFrom, Bool.and_eq_true, decide_eq_true_eq] at hm
    rw [List.filter_cons]
    split
    · rename_i hq
      simp only [decide_eq_true_eq] at hq
      simp only [Memory.wfFrom, Bool.and_eq_true, decide_eq_true_eq]
      exact ⟨⟨hq, hm.1.2⟩, wfFrom_filter _ rest (a + 1) hm.2⟩
    · exact ih (a + 1) hm.2

theorem wfFrom_cells_append (tail : Memory) (bytes : List Byte) : ∀ a,
    Memory.wfFrom (a + bytes.length) tail = true → Memory.wfFrom a (Memory.cells a bytes ++ tail) = true := by
  induction bytes with
  | nil => intro a h; simpa [Memory.cells] using h
  | cons b rest ih =>
    intro a h
    have hr := ih (a + 1) (by rw [List.length_cons] at h; rwa [show a + 1 + rest.length = a + (rest.length + 1) by omega])
    unfold Memory.cells
    split
    · exact wfFrom_mono (by omega) _ hr
    · rename_i hb
      simp only [List.cons_append, Memory.wfFrom, Bool.and_eq_true, decide_eq_true_eq]
      exact ⟨⟨Nat.le_refl a, hb⟩, hr⟩

theorem wfFrom_below_append (a : Nat) (tail : Memory) (ht : Memory.wfFrom a tail = true) :
    ∀ (m : Memory) (lo : Nat), lo ≤ a → Memory.wfFrom lo m = true →
      Memory.wfFrom lo (m.filter (fun c => decide (c.1 < a)) ++ tail) = true := by
  intro m
  induction m with
  | nil => intro lo hlo _; simpa using wfFrom_mono hlo _ ht
  | cons c rest ih =>
    obtain ⟨x, b⟩ := c
    intro lo hlo hm
    simp only [Memory.wfFrom, Bool.and_eq_true, decide_eq_true_eq] at hm
    rw [List.filter_cons]
    split
    · rename_i hq
      simp only [decide_eq_true_eq] at hq
      simp only [List.cons_append, Memory.wfFrom, Bool.and_eq_true, decide_eq_true_eq]
      exact ⟨hm.1, ih (x + 1) (by omega) hm.2⟩
    · exact ih lo hlo (wfFrom_mono (by omega) _ hm.2)

/-- Every write keeps the canonical form. -/
theorem Memory.wf_writeBytes (m : Memory) (a : Nat) (bytes : List Byte) (h : m.wf = true) :
    (m.writeBytes a bytes).wf = true := by
  unfold Memory.wf Memory.writeBytes at *
  rw [List.append_assoc]
  exact wfFrom_below_append a _ (wfFrom_cells_append _ bytes a (wfFrom_filter_ge _ m 0 h)) m 0 (Nat.zero_le a) h

/-- Writing one byte keeps the canonical form. -/
theorem Memory.wf_write (m : Memory) (a : Nat) (b : Byte) (h : m.wf = true) : (m.write a b).wf = true :=
  m.wf_writeBytes a [b] h

theorem within_cells (n : Nat) (bytes : List Byte) : ∀ a, a + bytes.length ≤ n →
    Memory.within n (Memory.cells a bytes) = true := by
  induction bytes with
  | nil => intro a _; rfl
  | cons b rest ih =>
    intro a h
    rw [List.length_cons] at h
    have hr := ih (a + 1) (by omega)
    unfold Memory.cells
    split
    · exact hr
    · unfold Memory.within at hr ⊢
      simp only [List.all_cons, Bool.and_eq_true, decide_eq_true_eq]
      exact ⟨by omega, hr⟩

/-- A write inside a space of `n` addresses keeps every cell inside it. -/
theorem Memory.within_writeBytes (n : Nat) (m : Memory) (a : Nat) (bytes : List Byte) (hm : m.within n = true)
    (ha : a + bytes.length ≤ n) : (m.writeBytes a bytes).within n = true := by
  have hc := within_cells n bytes a ha
  unfold Memory.within Memory.writeBytes at *
  simp only [List.all_append, Bool.and_eq_true, List.all_eq_true, List.mem_filter] at *
  exact ⟨⟨fun x hx => hm x hx.1, hc⟩, fun x hx => hm x hx.1⟩

/-- What empty memory reads as. -/
@[simp] theorem Memory.read_nil (a : Nat) : Memory.read [] a = unlistedByte := rfl

theorem Memory.wf_nil : Memory.wf [] = true := rfl

end Sys2Proof.Machine
end

