-- ==== Sys2Proof/Laws/State.lean ====
section
/-! SUPPORT. One lemma per field per update of State, so that no later proof unfolds a record update. -/

namespace Sys2Proof.Machine

@[simp] theorem State.setCalValid_calValid (s : State) : (s.setCalValid).calValid = true := rfl
@[simp] theorem State.setCalValid_dpDone (s : State) : (s.setCalValid).dpDone = s.dpDone := rfl
@[simp] theorem State.setCalValid_cal (s : State) : (s.setCalValid).cal = s.cal := rfl
@[simp] theorem State.setCalValid_dead (s : State) : (s.setCalValid).dead = s.dead := rfl
@[simp] theorem State.setCalValid_frame (s : State) : (s.setCalValid).frame = s.frame := rfl
@[simp] theorem State.setCalValid_busy (s : State) : (s.setCalValid).busy = s.busy := rfl
@[simp] theorem State.setCalValid_done (s : State) : (s.setCalValid).done = s.done := rfl
@[simp] theorem State.setCalValid_outcome (s : State) : (s.setCalValid).outcome = s.outcome := rfl
@[simp] theorem State.setCalValid_tmap (s : State) : (s.setCalValid).tmap = s.tmap := rfl
@[simp] theorem State.setCalValid_host (s : State) : (s.setCalValid).host = s.host := rfl
@[simp] theorem State.setCalValid_lastRead (s : State) : (s.setCalValid).lastRead = s.lastRead := rfl
@[simp] theorem State.setCalValid_freeCount (s : State) : (s.setCalValid).freeCount = s.freeCount := rfl

@[simp] theorem State.setDpDone_calValid (s : State) : (s.setDpDone).calValid = s.calValid := rfl
@[simp] theorem State.setDpDone_dpDone (s : State) : (s.setDpDone).dpDone = true := rfl
@[simp] theorem State.setDpDone_cal (s : State) : (s.setDpDone).cal = s.cal := rfl
@[simp] theorem State.setDpDone_dead (s : State) : (s.setDpDone).dead = s.dead := rfl
@[simp] theorem State.setDpDone_frame (s : State) : (s.setDpDone).frame = s.frame := rfl
@[simp] theorem State.setDpDone_busy (s : State) : (s.setDpDone).busy = s.busy := rfl
@[simp] theorem State.setDpDone_done (s : State) : (s.setDpDone).done = s.done := rfl
@[simp] theorem State.setDpDone_outcome (s : State) : (s.setDpDone).outcome = s.outcome := rfl
@[simp] theorem State.setDpDone_tmap (s : State) : (s.setDpDone).tmap = s.tmap := rfl
@[simp] theorem State.setDpDone_host (s : State) : (s.setDpDone).host = s.host := rfl
@[simp] theorem State.setDpDone_lastRead (s : State) : (s.setDpDone).lastRead = s.lastRead := rfl
@[simp] theorem State.setDpDone_freeCount (s : State) : (s.setDpDone).freeCount = s.freeCount := rfl

@[simp] theorem State.finish_calValid (s : State) (o : FrameOutcome) (map : Option (List F64)) : (s.finish o map).calValid = s.calValid := rfl
@[simp] theorem State.finish_dpDone (s : State) (o : FrameOutcome) (map : Option (List F64)) : (s.finish o map).dpDone = s.dpDone := rfl
@[simp] theorem State.finish_cal (s : State) (o : FrameOutcome) (map : Option (List F64)) : (s.finish o map).cal = s.cal := rfl
@[simp] theorem State.finish_dead (s : State) (o : FrameOutcome) (map : Option (List F64)) : (s.finish o map).dead = s.dead := rfl
@[simp] theorem State.finish_frame (s : State) (o : FrameOutcome) (map : Option (List F64)) : (s.finish o map).frame = s.frame := rfl
@[simp] theorem State.finish_busy (s : State) (o : FrameOutcome) (map : Option (List F64)) : (s.finish o map).busy = false := rfl
@[simp] theorem State.finish_done (s : State) (o : FrameOutcome) (map : Option (List F64)) : (s.finish o map).done = true := rfl
@[simp] theorem State.finish_outcome (s : State) (o : FrameOutcome) (map : Option (List F64)) : (s.finish o map).outcome = some o := rfl
@[simp] theorem State.finish_tmap (s : State) (o : FrameOutcome) (map : Option (List F64)) : (s.finish o map).tmap = map := rfl
@[simp] theorem State.finish_host (s : State) (o : FrameOutcome) (map : Option (List F64)) : (s.finish o map).host = s.host := rfl
@[simp] theorem State.finish_lastRead (s : State) (o : FrameOutcome) (map : Option (List F64)) : (s.finish o map).lastRead = s.lastRead := rfl
@[simp] theorem State.finish_freeCount (s : State) (o : FrameOutcome) (map : Option (List F64)) : (s.finish o map).freeCount = s.freeCount := rfl

@[simp] theorem State.raise_calValid (s : State) (o : FrameOutcome) : (s.raise o).calValid = s.calValid := rfl
@[simp] theorem State.raise_dpDone (s : State) (o : FrameOutcome) : (s.raise o).dpDone = s.dpDone := rfl
@[simp] theorem State.raise_cal (s : State) (o : FrameOutcome) : (s.raise o).cal = s.cal := rfl
@[simp] theorem State.raise_dead (s : State) (o : FrameOutcome) : (s.raise o).dead = s.dead := rfl
@[simp] theorem State.raise_frame (s : State) (o : FrameOutcome) : (s.raise o).frame = s.frame := rfl
@[simp] theorem State.raise_busy (s : State) (o : FrameOutcome) : (s.raise o).busy = false := rfl
@[simp] theorem State.raise_done (s : State) (o : FrameOutcome) : (s.raise o).done = true := rfl
@[simp] theorem State.raise_outcome (s : State) (o : FrameOutcome) : (s.raise o).outcome = some o := rfl
@[simp] theorem State.raise_tmap (s : State) (o : FrameOutcome) : (s.raise o).tmap = none := rfl
@[simp] theorem State.raise_host (s : State) (o : FrameOutcome) : (s.raise o).host = s.host := rfl
@[simp] theorem State.raise_lastRead (s : State) (o : FrameOutcome) : (s.raise o).lastRead = s.lastRead := rfl
@[simp] theorem State.raise_freeCount (s : State) (o : FrameOutcome) : (s.raise o).freeCount = s.freeCount := rfl

@[simp] theorem State.acceptStart_calValid (s : State) : (s.acceptStart).calValid = s.calValid := rfl
@[simp] theorem State.acceptStart_dpDone (s : State) : (s.acceptStart).dpDone = s.dpDone := rfl
@[simp] theorem State.acceptStart_cal (s : State) : (s.acceptStart).cal = s.cal := rfl
@[simp] theorem State.acceptStart_dead (s : State) : (s.acceptStart).dead = s.dead := rfl
@[simp] theorem State.acceptStart_frame (s : State) : (s.acceptStart).frame = s.frame := rfl
@[simp] theorem State.acceptStart_busy (s : State) : (s.acceptStart).busy = true := rfl
@[simp] theorem State.acceptStart_done (s : State) : (s.acceptStart).done = false := rfl
@[simp] theorem State.acceptStart_outcome (s : State) : (s.acceptStart).outcome = none := rfl
@[simp] theorem State.acceptStart_tmap (s : State) : (s.acceptStart).tmap = none := rfl
@[simp] theorem State.acceptStart_host (s : State) : (s.acceptStart).host = s.host := rfl
@[simp] theorem State.acceptStart_lastRead (s : State) : (s.acceptStart).lastRead = s.lastRead := rfl
@[simp] theorem State.acceptStart_freeCount (s : State) : (s.acceptStart).freeCount = s.freeCount := rfl

@[simp] theorem State.resetEvent_calValid (s : State) : (s.resetEvent).calValid = false := rfl
@[simp] theorem State.resetEvent_dpDone (s : State) : (s.resetEvent).dpDone = false := rfl
@[simp] theorem State.resetEvent_cal (s : State) : (s.resetEvent).cal = none := rfl
@[simp] theorem State.resetEvent_dead (s : State) : (s.resetEvent).dead = none := rfl
@[simp] theorem State.resetEvent_frame (s : State) : (s.resetEvent).frame = s.frame := rfl
@[simp] theorem State.resetEvent_busy (s : State) : (s.resetEvent).busy = false := rfl
@[simp] theorem State.resetEvent_done (s : State) : (s.resetEvent).done = false := rfl
@[simp] theorem State.resetEvent_outcome (s : State) : (s.resetEvent).outcome = none := rfl
@[simp] theorem State.resetEvent_tmap (s : State) : (s.resetEvent).tmap = none := rfl
@[simp] theorem State.resetEvent_host (s : State) : (s.resetEvent).host = s.host := rfl
@[simp] theorem State.resetEvent_lastRead (s : State) : (s.resetEvent).lastRead = s.lastRead := rfl
@[simp] theorem State.resetEvent_freeCount (s : State) : (s.resetEvent).freeCount = s.freeCount := rfl

@[simp] theorem State.capture_calValid (s : State) (g : List Int) : (s.capture g).calValid = true := rfl
@[simp] theorem State.capture_dpDone (s : State) (g : List Int) : (s.capture g).dpDone = s.dpDone := rfl
@[simp] theorem State.capture_cal (s : State) (g : List Int) : (s.capture g).cal = some (g.map i2f) := rfl
@[simp] theorem State.capture_dead (s : State) (g : List Int) : (s.capture g).dead = s.dead := rfl
@[simp] theorem State.capture_frame (s : State) (g : List Int) : (s.capture g).frame = s.frame := rfl
@[simp] theorem State.capture_busy (s : State) (g : List Int) : (s.capture g).busy = s.busy := rfl
@[simp] theorem State.capture_done (s : State) (g : List Int) : (s.capture g).done = s.done := rfl
@[simp] theorem State.capture_outcome (s : State) (g : List Int) : (s.capture g).outcome = s.outcome := rfl
@[simp] theorem State.capture_tmap (s : State) (g : List Int) : (s.capture g).tmap = s.tmap := rfl
@[simp] theorem State.capture_host (s : State) (g : List Int) : (s.capture g).host = s.host := rfl
@[simp] theorem State.capture_lastRead (s : State) (g : List Int) : (s.capture g).lastRead = s.lastRead := rfl
@[simp] theorem State.capture_freeCount (s : State) (g : List Int) : (s.capture g).freeCount = s.freeCount := rfl

@[simp] theorem State.present_calValid (s : State) (m : Memory) : (s.present m).calValid = s.calValid := rfl
@[simp] theorem State.present_dpDone (s : State) (m : Memory) : (s.present m).dpDone = s.dpDone := rfl
@[simp] theorem State.present_cal (s : State) (m : Memory) : (s.present m).cal = s.cal := rfl
@[simp] theorem State.present_dead (s : State) (m : Memory) : (s.present m).dead = s.dead := rfl
@[simp] theorem State.present_frame (s : State) (m : Memory) : (s.present m).frame = m := rfl
@[simp] theorem State.present_busy (s : State) (m : Memory) : (s.present m).busy = true := rfl
@[simp] theorem State.present_done (s : State) (m : Memory) : (s.present m).done = false := rfl
@[simp] theorem State.present_outcome (s : State) (m : Memory) : (s.present m).outcome = none := rfl
@[simp] theorem State.present_tmap (s : State) (m : Memory) : (s.present m).tmap = none := rfl
@[simp] theorem State.present_host (s : State) (m : Memory) : (s.present m).host = [] := rfl
@[simp] theorem State.present_lastRead (s : State) (m : Memory) : (s.present m).lastRead = s.lastRead := rfl
@[simp] theorem State.present_freeCount (s : State) (m : Memory) : (s.present m).freeCount = s.freeCount := rfl

@[simp] theorem State.placeFrame_calValid (s : State) (m : Memory) : (s.placeFrame m).calValid = s.calValid := rfl
@[simp] theorem State.placeFrame_dpDone (s : State) (m : Memory) : (s.placeFrame m).dpDone = s.dpDone := rfl
@[simp] theorem State.placeFrame_cal (s : State) (m : Memory) : (s.placeFrame m).cal = s.cal := rfl
@[simp] theorem State.placeFrame_dead (s : State) (m : Memory) : (s.placeFrame m).dead = s.dead := rfl
@[simp] theorem State.placeFrame_frame (s : State) (m : Memory) : (s.placeFrame m).frame = m := rfl
@[simp] theorem State.placeFrame_busy (s : State) (m : Memory) : (s.placeFrame m).busy = true := rfl
@[simp] theorem State.placeFrame_done (s : State) (m : Memory) : (s.placeFrame m).done = s.done := rfl
@[simp] theorem State.placeFrame_outcome (s : State) (m : Memory) : (s.placeFrame m).outcome = s.outcome := rfl
@[simp] theorem State.placeFrame_tmap (s : State) (m : Memory) : (s.placeFrame m).tmap = s.tmap := rfl
@[simp] theorem State.placeFrame_host (s : State) (m : Memory) : (s.placeFrame m).host = [] := rfl
@[simp] theorem State.placeFrame_lastRead (s : State) (m : Memory) : (s.placeFrame m).lastRead = s.lastRead := rfl
@[simp] theorem State.placeFrame_freeCount (s : State) (m : Memory) : (s.placeFrame m).freeCount = s.freeCount := rfl

@[simp] theorem State.detect_calValid (p : Config.Params) (g : List Int) (s : State) : (s.detect p g).calValid = s.calValid := by
  unfold State.detect; split <;> rfl
@[simp] theorem State.detect_cal (p : Config.Params) (g : List Int) (s : State) : (s.detect p g).cal = s.cal := by
  unfold State.detect; split <;> rfl
@[simp] theorem State.detect_frame (p : Config.Params) (g : List Int) (s : State) : (s.detect p g).frame = s.frame := by
  unfold State.detect; split <;> rfl
@[simp] theorem State.detect_busy (p : Config.Params) (g : List Int) (s : State) : (s.detect p g).busy = s.busy := by
  unfold State.detect; split <;> rfl
@[simp] theorem State.detect_done (p : Config.Params) (g : List Int) (s : State) : (s.detect p g).done = s.done := by
  unfold State.detect; split <;> rfl
@[simp] theorem State.detect_outcome (p : Config.Params) (g : List Int) (s : State) : (s.detect p g).outcome = s.outcome := by
  unfold State.detect; split <;> rfl
@[simp] theorem State.detect_tmap (p : Config.Params) (g : List Int) (s : State) : (s.detect p g).tmap = s.tmap := by
  unfold State.detect; split <;> rfl
@[simp] theorem State.detect_host (p : Config.Params) (g : List Int) (s : State) : (s.detect p g).host = s.host := by
  unfold State.detect; split <;> rfl
@[simp] theorem State.detect_lastRead (p : Config.Params) (g : List Int) (s : State) : (s.detect p g).lastRead = s.lastRead := by
  unfold State.detect; split <;> rfl
@[simp] theorem State.detect_freeCount (p : Config.Params) (g : List Int) (s : State) : (s.detect p g).freeCount = s.freeCount := by
  unfold State.detect; split <;> rfl

/-- After detection has had its chance `DP_DONE` is 1 (R78). -/
@[simp] theorem State.detect_dpDone (p : Config.Params) (g : List Int) (s : State) : (s.detect p g).dpDone = true := by
  unfold State.detect; split
  · assumption
  · rfl

/-- The mask after detection (R78, R82). -/
@[simp] theorem State.detect_dead (p : Config.Params) (g : List Int) (s : State) :
    (s.detect p g).dead = if s.dpDone then s.dead else some (deadMask p g) := by
  unfold State.detect; split <;> simp_all

end Sys2Proof.Machine
end

