-- ==== Sys2Proof/Laws/Operands.lean ====
section
/-! SUPPORT. Sizes and elements of the grids, the stores and the map: one lemma per shared operation. -/

namespace Sys2Proof.Machine

@[simp] theorem workingGrid_length (p : Config.Params) (m : Memory) : (workingGrid p m).length = p.nPix := by
  simp [workingGrid]

/-- An element of the working grid by linear index (R55). -/
theorem workingGrid_getElem? (p : Config.Params) (m : Memory) (i : Nat) :
    (workingGrid p m)[i]? = if i < p.nPix then some (rawPixel p m (i / p.cols) (i % p.cols)) else none := by
  unfold workingGrid
  rw [List.getElem?_map]
  by_cases h : i < p.nPix
  · simp [h]
  · simp [h]

/-- Linear indexes of in-range coordinates are in range and split back into the coordinate (R7). -/
theorem gridIndex_lt (p : Config.Params) (r c : Nat) (hr : r < p.rows) (hc : c < p.cols) :
    gridIndex p r c < p.nPix ∧ gridIndex p r c / p.cols = r ∧ gridIndex p r c % p.cols = c := by
  unfold gridIndex Config.Params.nPix
  have h0 : 0 < p.cols := by omega
  refine ⟨?_, ?_, ?_⟩
  · have : p.cols * (r + 1) ≤ p.cols * p.rows := Nat.mul_le_mul_left _ hr
    rw [Nat.mul_add, Nat.mul_one] at this
    rw [Nat.mul_comm p.rows]
    omega
  · rw [Nat.mul_add_div h0, Nat.div_eq_of_lt hc, Nat.add_zero]
  · rw [Nat.mul_add_mod, Nat.mod_eq_of_lt hc]

/-- An element of the working grid by coordinate (R55). -/
theorem workingGrid_at (p : Config.Params) (m : Memory) (r c : Nat) (hr : r < p.rows) (hc : c < p.cols) :
    (workingGrid p m)[gridIndex p r c]? = some (rawPixel p m r c) := by
  obtain ⟨h1, h2, h3⟩ := gridIndex_lt p r c hr hc
  rw [workingGrid_getElem?, if_pos h1, h2, h3]

@[simp] theorem deadMask_length (p : Config.Params) (g : List Int) : (deadMask p g).length = g.length := by
  simp [deadMask]

@[simp] theorem calElems_length (p : Config.Params) (s : State) : (s.calElems p).length = p.nPix := by
  unfold State.calElems calUnspecified
  split
  · split <;> simp_all
  · simp

/-- A store that holds a whole grid reads as that grid. -/
theorem calElems_of_cal (p : Config.Params) (s : State) (l : List F64) (h : s.cal = some l) (hl : l.length = p.nPix) :
    s.calElems p = l := by
  simp [State.calElems, h, hl]

@[simp] theorem tempMap_length (p : Config.Params) (s : State) : (tempMap p s).length = p.nPix := by
  simp [tempMap]

/-- An element of the map, from the pixel and the calibration element at the same index (R96). -/
theorem tempMap_getElem? (p : Config.Params) (s : State) (i : Nat) (v : Int) (c : F64)
    (hv : (workingGrid p s.frame)[i]? = some v) (hc : (s.calElems p)[i]? = some c) :
    (tempMap p s)[i]? = some (celsius p (i2f v) c) := by
  simp [tempMap, List.getElem?_zipWith, hv, hc]

end Sys2Proof.Machine
end

