-- ==== Sys2Proof/Laws/Exec.lean ====
section
/-! SUPPORT. What each operation and each move of the host can do, said once. -/

namespace Sys2Proof.Machine

/-- The state CAL leaves, field by field (R75). -/
theorem calOperation_eq (p : Config.Params) (s : State) :
    calOperation p s =
      { s with
        calValid := true, dpDone := true, cal := some ((workingGrid p s.frame).map i2f)
        dead := if s.dpDone then s.dead else some (deadMask p (workingGrid p s.frame))
        busy := false, done := true, outcome := some .calUpdated, tmap := none } := by
  unfold calOperation State.detect
  cases h : s.dpDone <;> simp [State.capture, State.finish, State.setCalValid, State.setDpDone, h]

theorem exec_cal (s : State) : exec .cal s = .next (calOperation Config.tdec s) := rfl

theorem exec_norm (s : State) : exec .norm s = .next (normOperation Config.tdec s) := rfl

/-- The state NORM leaves (R90, R91). -/
theorem normOperation_eq (p : Config.Params) (s : State) :
    normOperation p s =
      { s with
        busy := false, done := true
        outcome := some (if s.calValid then .temperature else .noCalibration)
        tmap := if s.calValid then some (tempMap p s) else none } := by
  unfold normOperation
  cases h : s.calValid <;> simp [State.finish, State.raise, h]

/-- What an operation does to a state, by the kind of the operation (R65, R68). -/
def afterOperation (i : Instr) (s : State) : State :=
  match i with
  | .cal => calOperation Config.tdec s
  | .norm => normOperation Config.tdec s
  | .unrec00 => unrecOperation s
  | .unrec02 => unrecOperation s
  | .unrec04 _ => unrecOperation s
  | .unrec08 _ => unrecOperation s
  | .unrec10 _ => unrecOperation s
  | .unrec20 _ => unrecOperation s
  | .unrec40 _ => unrecOperation s
  | .unrec80 _ => unrecOperation s

/-- Every operation answers a next state in every state. -/
theorem exec_eq_next (i : Instr) (s : State) : exec i s = .next (afterOperation i s) := by
  cases i <;> rfl

/-- The three shapes of an operation's result. -/
theorem afterOperation_cases (i : Instr) (s : State) :
    (i = .cal ∧ afterOperation i s = calOperation Config.tdec s) ∨
      (i = .norm ∧ afterOperation i s = normOperation Config.tdec s) ∨
      (i ≠ .cal ∧ i ≠ .norm ∧ afterOperation i s = s.raise .unrecognized) := by
  cases i <;> simp [afterOperation, unrecOperation]

/-- Everything a host move other than `idle` can do when it answers a next state. -/
theorem hostTurn_cases (p : Config.Params) (m : HostMove) (s t : State) (hm : m ≠ .idle)
    (h : hostTurn p m s = .next t) :
    (m = .rst ∧ t = s.resetEvent) ∨
      (∃ a bytes, m = .write a bytes ∧ s.busy = false ∧ a + bytes.length ≤ p.frameBytes ∧
        t = { s with frame := s.frame.writeBytes a bytes }) ∨
      (m = .start ∧ t = if s.busy then s else s.acceptStart) ∨
      (∃ port v n, m = .read port ∧ t = { s with lastRead := some v, freeCount := n }) := by
  cases m with
  | idle => exact absurd rfl hm
  | rst => left; simp only [hostTurn, hostReset, Host.Outcome.next.injEq] at h; exact ⟨rfl, h.symm⟩
  | write a bytes =>
    right; left
    simp only [hostTurn, hostWrite] at h
    split at h
    · cases h
    · split at h
      · cases h
      · refine ⟨a, bytes, rfl, by simp_all, by omega, ?_⟩
        simpa using h.symm
  | start =>
    right; right; left
    simp only [hostTurn, hostStart, Host.Outcome.next.injEq] at h
    exact ⟨rfl, h.symm⟩
  | read port =>
    right; right; right
    have key : ∃ v n, t = { s with lastRead := some v, freeCount := n } := by
      cases port <;> simp only [hostTurn, hostRead] at h
      case busy => exact ⟨_, _, (Host.Outcome.next.inj h).symm⟩
      case done => exact ⟨_, _, (Host.Outcome.next.inj h).symm⟩
      case outcome =>
        split at h
        · cases h
        · unfold readOutcome at h
          split at h <;> exact ⟨_, _, (Host.Outcome.next.inj h).symm⟩
      case tmapValid =>
        split at h
        · cases h
        · exact ⟨_, _, (Host.Outcome.next.inj h).symm⟩
      case status =>
        split at h
        · cases h
        · exact ⟨_, _, (Host.Outcome.next.inj h).symm⟩
      case dead i =>
        split at h
        · cases h
        · unfold readDead at h
          split at h
          · cases h
          · split at h
            · cases h
            · exact ⟨_, _, (Host.Outcome.next.inj h).symm⟩
      case tmap i =>
        split at h
        · cases h
        · unfold readTmap at h
          split at h
          · cases h
          · split at h <;> exact ⟨_, _, (Host.Outcome.next.inj h).symm⟩
    obtain ⟨v, n, ht⟩ := key
    exact ⟨port, v, n, rfl, ht⟩

/-- TDEC's turn always answers a next state (R38: the step is total). -/
theorem tdecTurn_eq (s : State) :
    tdecTurn s = .next (if s.busy then afterOperation (decode s.frame) s else s) := by
  unfold tdecTurn fetch
  cases h : s.busy
  · rfl
  · simp [exec_eq_next]

/-- Everything a step can do when it answers a next state. -/
theorem step_cases (s t : State) (h : step s = .next t) :
    (∃ rest, (s.host = [] ∧ rest = [] ∨ s.host = .idle :: rest) ∧
        t = if s.busy then afterOperation (decode s.frame) { s with host := rest } else { s with host := rest }) ∨
      (∃ m rest, s.host = m :: rest ∧ m ≠ .idle ∧
        hostTurn Config.tdec m { s with host := rest } = .next t) := by
  unfold step turn at h
  split at h
  · rename_i hnil
    left
    refine ⟨[], Or.inl ⟨hnil, rfl⟩, ?_⟩
    rw [tdecTurn_eq] at h
    have hs : ({ s with host := [] } : State) = s := by rw [← hnil]
    rw [hs]
    exact (Host.Outcome.next.inj h).symm
  · rename_i m rest hcons
    by_cases hm : m = .idle
    · left
      subst hm
      refine ⟨rest, Or.inr hcons, ?_⟩
      have h' : tdecTurn { s with host := rest } = .next t := h
      rw [tdecTurn_eq] at h'
      exact (Host.Outcome.next.inj h').symm
    · right
      exact ⟨m, rest, hcons, hm, h⟩

/-- A presented frame runs on TDEC's next turn. -/
theorem step_present (s : State) (m : Memory) :
    step (s.present m) = .next (afterOperation (decode m) (s.present m)) := by
  have h : step (s.present m) = tdecTurn (s.present m) := rfl
  rw [h, tdecTurn_eq]
  simp

/-- The next word of spec/opcode_table.json runs on the very next step. -/
theorem step_withFetchWord (s : State) (nbits w : Nat) :
    step (s.withFetchWord nbits w) = exec (decode (tableFrame nbits w)) (s.withFetchWord nbits w) := rfl

@[simp] theorem runFrames_nil (s : State) : runFrames s [] = .next s := rfl

/-- A run takes its frames one by one. -/
@[simp] theorem runFrames_cons (s : State) (m : Memory) (ms : List Memory) :
    runFrames s (m :: ms) = runFrames (afterOperation (decode m) (s.present m)) ms := by
  rw [runFrames, step_present]

/-- A run over two sequences is a run over the first and then one over the second. -/
theorem runFrames_append (ms ms' : List Memory) (s t : State) (h : runFrames s ms = .next t) :
    runFrames s (ms ++ ms') = runFrames t ms' := by
  induction ms generalizing s with
  | nil => simp only [runFrames_nil, Host.Outcome.next.injEq] at h; simp [h]
  | cons m rest ih => simp only [runFrames_cons, List.cons_append] at h ⊢; exact ih _ h

/-- Every sequence of frames runs to its end. -/
theorem runFrames_total (ms : List Memory) (s : State) : ∃ t, runFrames s ms = .next t := by
  induction ms generalizing s with
  | nil => exact ⟨s, rfl⟩
  | cons m rest ih => simpa using ih _

end Sys2Proof.Machine
end

