-- ==== Sys2Proof/Laws/Float.lean ====
section
/-! SUPPORT. What rounding does, said once: the nearest-even quotient, the place of the last bit, and the exact value of a
rounded quotient. -/

namespace Sys2Proof.Machine

/-- The nearest-even quotient lies within half a divisor of the dividend, and at exactly half it is even. -/
theorem divHalfEven_spec (n d : Nat) (hd : 0 < d) :
    2 * n ≤ 2 * (divHalfEven n d * d) + d ∧ 2 * (divHalfEven n d * d) ≤ 2 * n + d ∧
      ((2 * n = 2 * (divHalfEven n d * d) + d ∨ 2 * (divHalfEven n d * d) = 2 * n + d) →
        divHalfEven n d % 2 = 0) := by
  have hn := Nat.div_add_mod n d
  have hr := Nat.mod_lt n hd
  set q := n / d with hq
  set r := n % d with hrr
  have hdq : d * q = q * d := Nat.mul_comm d q
  have hval : divHalfEven n d = if 2 * r < d then q else if d < 2 * r then q + 1 else q + q % 2 := rfl
  have hsucc : (q + 1) * d = q * d + d := Nat.succ_mul q d
  rw [hval]
  split_ifs with h1 h2
  · refine ⟨by omega, by omega, fun h => by omega⟩
  · refine ⟨by omega, by omega, fun h => by omega⟩
  · rcases Nat.mod_two_eq_zero_or_one q with h0 | h0
    · rw [h0, Nat.add_zero]
      exact ⟨by omega, by omega, fun _ => h0⟩
    · rw [h0]
      exact ⟨by omega, by omega, fun _ => by omega⟩

/-- An exact quotient is not changed by rounding. -/
theorem divHalfEven_mul (q d : Nat) (hd : 0 < d) : divHalfEven (q * d) d = q := by
  unfold divHalfEven
  simp only [Nat.mul_mod_left, Nat.mul_div_cancel q hd, Nat.mul_zero, hd, if_true]

/-- The nearest-even quotient is monotone in the dividend. -/
theorem divHalfEven_mono {n n' d : Nat} (hd : 0 < d) (h : n ≤ n') : divHalfEven n d ≤ divHalfEven n' d := by
  have h1 := divHalfEven_spec n d hd
  have h2 := divHalfEven_spec n' d hd
  by_contra hlt
  push Not at hlt
  have h3 : (divHalfEven n' d + 1) * d ≤ divHalfEven n d * d := Nat.mul_le_mul_right d hlt
  rw [Nat.succ_mul] at h3
  have he : n = n' := by omega
  rw [he] at hlt
  exact Nat.lt_irrefl _ hlt

/-- The last place of `n / d` units: below 2^53 of it, and at least 2^52 of it unless it is the first place. -/
theorem lastPlace_spec (n d : Nat) (hd : 0 < d) :
    n < 2 ^ 53 * (d * 2 ^ lastPlace n d) ∧ (lastPlace n d ≠ 0 → 2 ^ 52 * (d * 2 ^ lastPlace n d) ≤ n) := by
  unfold lastPlace
  set z := n / d with hz
  set t := Nat.log2 z - 52 with ht
  constructor
  · have h1 : z < 2 ^ (Nat.log2 z + 1) := Nat.lt_log2_self
    have h2 : 2 ^ (Nat.log2 z + 1) ≤ 2 ^ (t + 53) := Nat.pow_le_pow_right (by decide) (by omega)
    have h3 : z < 2 ^ (t + 53) := lt_of_lt_of_le h1 h2
    have h4 : n < d * 2 ^ (t + 53) := by
      have := (Nat.div_lt_iff_lt_mul hd).mp h3
      rwa [Nat.mul_comm] at this
    calc n < d * 2 ^ (t + 53) := h4
      _ = 2 ^ 53 * (d * 2 ^ t) := by rw [Nat.pow_add]; ring
  · intro h0
    have hz0 : z ≠ 0 := by
      intro hz'
      apply h0
      rw [ht, hz']
      simp
    have h1 : 2 ^ Nat.log2 z ≤ z := Nat.log2_self_le hz0
    have h2 : Nat.log2 z = 52 + t := by omega
    rw [h2] at h1
    have h3 : 2 ^ (52 + t) * d ≤ n := (Nat.le_div_iff_mul_le hd).mp h1
    calc 2 ^ 52 * (d * 2 ^ t) = 2 ^ (52 + t) * d := by rw [Nat.pow_add]; ring
      _ ≤ n := h3

/-- The rounded significand: at most 2^53, and at least 2^52 unless the value is subnormal. -/
theorem significand_bounds (n d : Nat) (hd : 0 < d) :
    divHalfEven n (d * 2 ^ lastPlace n d) ≤ 2 ^ 53 ∧
      (lastPlace n d ≠ 0 → 2 ^ 52 ≤ divHalfEven n (d * 2 ^ lastPlace n d)) := by
  have hD : 0 < d * 2 ^ lastPlace n d := Nat.mul_pos hd (Nat.two_pow_pos _)
  obtain ⟨hhi, hlo⟩ := lastPlace_spec n d hd
  constructor
  · have := divHalfEven_mono hD (Nat.le_of_lt hhi)
    rwa [divHalfEven_mul _ _ hD] at this
  · intro h0
    have := divHalfEven_mono hD (hlo h0)
    rwa [divHalfEven_mul _ _ hD] at this

/-- What a magnitude pattern `t * 2^52 + q` stands for, with or without the carry `q = 2^53`. -/
theorem mag_of_pattern {t q : Nat} (hq : q ≤ 2 ^ 53) (ht : t ≠ 0 → 2 ^ 52 ≤ q) (hb : t * 2 ^ 52 + q < infBits)
    (s : Nat) (hs : s = 0 ∨ s = 2 ^ 63) :
    isFinite (BitVec.ofNat 64 (s + (t * 2 ^ 52 + q))) = true ∧
      magUnits (BitVec.ofNat 64 (s + (t * 2 ^ 52 + q))) = q * 2 ^ t ∧
      signBit (BitVec.ofNat 64 (s + (t * 2 ^ 52 + q))) = decide (s = 2 ^ 63) := by
  unfold infBits at hb
  set b := t * 2 ^ 52 + q with hbdef
  have hsmall : s + b < 2 ^ 64 := by rcases hs with h | h <;> omega
  have hnat : (BitVec.ofNat 64 (s + b)).toNat = s + b := by
    rw [BitVec.toNat_ofNat]; exact Nat.mod_eq_of_lt hsmall
  have hE : expField (BitVec.ofNat 64 (s + b)) = b / 2 ^ 52 := by
    unfold expField; rw [hnat]
    rcases hs with h | h <;> omega
  have hF : fracField (BitVec.ofNat 64 (s + b)) = b % 2 ^ 52 := by
    unfold fracField; rw [hnat]
    rcases hs with h | h <;> omega
  refine ⟨?_, ?_, ?_⟩
  · unfold isFinite; rw [hE]
    have : b / 2 ^ 52 ≠ 2047 := by omega
    simpa using this
  · unfold magUnits
    rw [hE, hF]
    rcases Nat.lt_or_ge q (2 ^ 52) with hq1 | hq1
    · have ht0 : t = 0 := by
        by_contra h; have := ht h; omega
      have h1 : b / 2 ^ 52 = 0 := by omega
      have h2 : b % 2 ^ 52 = q := by omega
      rw [h1, h2, if_pos rfl, ht0, Nat.pow_zero, Nat.mul_one]
    · rcases Nat.lt_or_ge q (2 ^ 53) with hq2 | hq2
      · have h1 : b / 2 ^ 52 = t + 1 := by omega
        have h2 : b % 2 ^ 52 = q - 2 ^ 52 := by omega
        have h3 : 2 ^ 52 + (q - 2 ^ 52) = q := by omega
        rw [h1, h2, h3, if_neg (by omega), Nat.add_sub_cancel]
      · have hq3 : q = 2 ^ 53 := by omega
        have h1 : b / 2 ^ 52 = t + 2 := by omega
        have h2 : b % 2 ^ 52 = 0 := by omega
        rw [h1, h2, if_neg (by omega), hq3, show t + 2 - 1 = t + 1 by omega, Nat.pow_succ]
        ring
  · unfold signBit; rw [hnat]
    rcases hs with h | h
    · simp [h]; omega
    · simp [h]

/-- The exact value of a rounded quotient, when it does not round past the largest binary64. -/
theorem units_roundQuot (num : Int) (den : Nat) (hd : 0 < den) (hb : roundUnits num.natAbs den < infBits) :
    isFinite (roundQuot num den) = true ∧
      units (roundQuot num den) =
        num.sign * ((divHalfEven num.natAbs (den * 2 ^ lastPlace num.natAbs den) * 2 ^ lastPlace num.natAbs den : Nat)
          : Int) := by
  obtain ⟨hq, hq'⟩ := significand_bounds num.natAbs den hd
  have hmin : min (roundUnits num.natAbs den) infBits = roundUnits num.natAbs den := Nat.min_eq_left (Nat.le_of_lt hb)
  unfold roundQuot
  rw [hmin]
  have h := mag_of_pattern hq hq' hb (if num < 0 then 2 ^ 63 else 0) (by split <;> simp)
  unfold roundUnits
  refine ⟨h.1, ?_⟩
  unfold units
  rw [h.2.1, h.2.2]
  rcases Int.lt_trichotomy num 0 with h0 | h0 | h0
  · rw [Int.sign_eq_neg_one_of_neg h0]; simp [h0]
  · subst h0
    simp [divHalfEven, lastPlace]
  · have : ¬ num < 0 := by omega
    rw [Int.sign_eq_one_of_pos h0]; simp [this]

end Sys2Proof.Machine
end

