-- ==== Sys2Proof/Laws/Frames.lean ====
section
/-! SUPPORT. The byte image of a frame line by address, and runs of the machine step by step. -/

namespace Sys2Proof.Machine

/-- A byte of the image by its address (R59). -/
theorem frameImage_getElem? (p : Config.Params) (l : FrameLine) (a : Nat) :
    (frameImage p l)[a]? = if a < p.frameBytes then some (frameByte p l a) else none := by
  unfold frameImage
  rw [List.getElem?_map]
  by_cases h : a < p.frameBytes <;> simp [h]

/-- No steps. -/
@[simp] theorem core_run_zero (s : State) : Sys2Proof.core.run 0 s = .next s := rfl

/-- A run whose first step answers a next state goes on from there. -/
theorem core_run_succ {s t : State} (k : Nat) (h : step s = .next t) :
    Sys2Proof.core.run (k + 1) s = Sys2Proof.core.run k t := by
  refine (Host.Core.run.eq_2 Sys2Proof.core s k).trans ?_
  have h' : Sys2Proof.core.step s = .next t := h
  rw [h']

/-- One step is a run of length 1. -/
theorem core_run_one (s : State) : Sys2Proof.core.run 1 s = step s := by
  refine (Host.Core.run.eq_2 Sys2Proof.core s 0).trans ?_
  have h' : Sys2Proof.core.step s = step s := rfl
  rw [h']
  cases step s <;> rfl

/-- Filling FRAME whole leaves a frame whose bytes are those written, whatever it held. -/
theorem read_writeBytes_whole (m : Memory) (bytes : List Byte) (a : Nat) (ha : a < bytes.length) :
    some ((m.writeBytes 0 bytes).read a) = bytes[a]? := by
  rw [Memory.read_writeBytes, if_pos (by omega), Nat.sub_zero, List.getD_eq_getElem?_getD,
    List.getElem?_eq_getElem ha, Option.getD_some]

end Sys2Proof.Machine
end

