-- ==== Sys2Proof/Laws/PerInstr.lean ====
section
/-! SUPPORT. A statement per operation of the table, one lemma per constructor. -/

namespace Sys2Proof.Laws.RowMatch

/-- The operation's status byte is matched by its own row of spec/opcode_table.json and by no other (R57: the patterns
"overlap neither each other nor CAL or NORM"), and the row carries the operation's mnemonic. -/
def Statement (i : Instr) : Prop :=
  (opcodeRows.findIdxs (fun r => r.selects (encode i))) = [rowIndex i] ∧
    (opcodeRows[rowIndex i]?).map OpcodeRow.mnemonic = some (mnemonicOf i)

theorem cal : Statement .cal := by unfold Statement; decide

theorem norm : Statement .norm := by unfold Statement; decide

theorem unrec00 : Statement .unrec00 := by unfold Statement; decide

theorem unrec02 : Statement .unrec02 := by unfold Statement; decide

theorem unrec04 : ∀ s : BitVec 2, Statement (.unrec04 s) := by unfold Statement; decide

theorem unrec08 : ∀ s : BitVec 3, Statement (.unrec08 s) := by unfold Statement; decide

theorem unrec10 : ∀ s : BitVec 4, Statement (.unrec10 s) := by unfold Statement; decide

theorem unrec20 : ∀ s : BitVec 5, Statement (.unrec20 s) := by unfold Statement; decide

theorem unrec40 : ∀ s : BitVec 6, Statement (.unrec40 s) := by unfold Statement; decide +kernel

theorem unrec80 : ∀ s : BitVec 7, Statement (.unrec80 s) := by unfold Statement; decide +kernel

end Sys2Proof.Laws.RowMatch
end

