-- ==== Sys2Proof/Tests/Slice0.lean ====
section
/-! SUPPORT. The model's own tests (expected values from spec/95_test_vectors.md, spec/30_encoding.md and
spec/42_decode.md) and, for every statement with hypotheses, a witness that meets them. -/

namespace Sys2Proof.Tests

open Sys2Proof Sys2Proof.Machine

/-! ### Well-formedness: one ill-formed term for each check -/

theorem test_params_wf : Config.tdec.wf = true := by decide

theorem test_params_refuse_frame_size : ({ Config.tdec with nChunks := 3 } : Config.Params).wf = false := by decide

theorem test_params_refuse_status_offset : ({ Config.tdec with statusOffset := 64896 } : Config.Params).wf = false := by
  decide

theorem test_params_refuse_equal_status : ({ Config.tdec with statusNorm := 1 } : Config.Params).wf = false := by decide

theorem test_params_refuse_crop_rows : ({ Config.tdec with cropRows := 157 } : Config.Params).wf = false := by decide

theorem test_params_refuse_crop_cols : ({ Config.tdec with cropCols := 209 } : Config.Params).wf = false := by decide

theorem test_params_refuse_pixel_bits : ({ Config.tdec with pixelBits := 12 } : Config.Params).wf = false := by decide

theorem test_line_refuses_row : (ProgramLine.cal 1000 none [⟨156, 0, 0⟩]).wf Config.tdec = false := by decide

theorem test_line_refuses_col : (ProgramLine.frame ⟨3, 0, none, [⟨0, 208, 0⟩]⟩).wf Config.tdec = false := by decide

theorem test_line_refuses_unrec_cal : (ProgramLine.unrec 1 0 none []).wf Config.tdec = false := by decide

theorem test_line_refuses_unrec_norm : (ProgramLine.unrec 3 0 none []).wf Config.tdec = false := by decide

theorem test_line_wf : (ProgramLine.norm 1100 (some 0) [⟨155, 207, 7⟩]).wf Config.tdec = true := by decide

/-! ### Decoding, from words written out bit by bit (R57; spec/95_test_vectors.md section 2.2) -/

theorem test_decode_cal : decodeTableWord 8 0b00000001 = some .cal := by decide

theorem test_decode_norm : decodeTableWord 8 0b00000011 = some .norm := by decide

theorem test_decode_unrec00 : decodeTableWord 8 0b00000000 = some .unrec00 := by decide

theorem test_decode_unrec02 : decodeTableWord 8 0b00000010 = some .unrec02 := by decide

theorem test_decode_unrec04 : decodeTableWord 8 0b00000101 = some (.unrec04 0b01) := by decide

theorem test_decode_unrec08 : decodeTableWord 8 0b00001011 = some (.unrec08 0b011) := by decide

theorem test_decode_unrec10 : decodeTableWord 8 0b00010001 = some (.unrec10 0b0001) := by decide

theorem test_decode_unrec20 : decodeTableWord 8 0b00100011 = some (.unrec20 0b00011) := by decide

theorem test_decode_unrec40 : decodeTableWord 8 0b01111111 = some (.unrec40 0b111111) := by decide

theorem test_decode_unrec80 : decodeTableWord 8 0b10000011 = some (.unrec80 0b0000011) := by decide

/-- The whole low byte is compared, not the 16-bit word at byte 20 (section 2.2: `0x0301`). -/
theorem test_decode_word_0301 : decodeTableWord 16 0x0301 = some .cal := by decide

/-! ### Operand assembly (section 2.1) -/

theorem test_word_little_endian : wordPixel Config.tdec [(0, 0xE8), (1, 0x03)] 0 = 1000 := by decide

theorem test_word_negative : rawPixel Config.tdec [(14, 0x9C), (15, 0xFF)] 0 7 = -100 := by decide

theorem test_word_minimum : rawPixel Config.tdec [(418, 0x00), (419, 0x80)] 1 1 = -32768 := by decide

theorem test_status_pixel : rawPixel Config.tdec [(20, 0x03), (21, 0x7F)] 0 10 = 32515 := by decide

theorem test_coordinate_7_9 : rawPixel Config.tdec [(2930, 0x64)] 7 9 = 100 := by decide

theorem test_coordinate_154_205 : rawPixel Config.tdec [(64474, 0x2A)] 154 205 = 42 := by decide

/-! ### binary64 (sections 1.2 and 2.3) -/

/-- Unfused: a fused multiply-add would end in B. -/
theorem test_transform_93 : celsiusOfDiff Config.tdec 93 = 0x4045D514E3BCD35A#64 := by decide +kernel

theorem test_transform_largest : celsiusOfDiff Config.tdec 65535 = 0x4092FC4E56041893#64 := by decide +kernel

theorem test_transform_smallest_positive : celsiusOfDiff Config.tdec (-2346) = 0x3F7B089A02752000#64 := by
  decide +kernel

theorem test_transform_negative : celsiusOfDiff Config.tdec (-59553) = 0xC08FFFFD566CF41E#64 := by decide +kernel

/-- Section 2.4, one pixel of 1 and all others 0: the mean of `S = 1`. -/
theorem test_mean_of_one : fdiv (i2f 1) (i2f 31930) = 0x3F006B7FC89530BB#64 := by decide +kernel

theorem test_threshold_of_1000 : fmul Config.tdec.kDead (i2f 1000) = 0x4072C00000000000#64 := by decide +kernel

/-- Section 2.3: `T = 43.79` serialised. -/
theorem test_serialise : serialise [0x4045E51EB851EB85#64] = [0x85, 0xEB, 0x51, 0xB8, 0x1E, 0xE5, 0x45, 0x40] := by
  decide

/-! ### The small geometry of section 2.7 -/

/-- Two rows of six pixels, the status in word 10. -/
def small : Config.Params :=
  { Config.tdec with chunkBytes := 48, nChunks := 1, rowsRaw := 3, colsRaw := 8 }

def smallCalFrame : Memory :=
  Memory.cells 0
    ([0x64, 0, 0x64, 0, 0x64, 0, 0x64, 0, 0x64, 0, 0x64, 0, 7, 0, 7, 0]
      ++ [0x64, 0, 0x64, 0, 1, 5, 0x14, 0, 0x64, 0, 0x64, 0, 7, 0, 7, 0]
      ++ [9, 0, 9, 0, 9, 0, 9, 0, 9, 0, 9, 0, 9, 0, 9, 0])

def smallNormFrame : Memory :=
  Memory.cells 0
    ([0x96, 0, 0x96, 0, 0x96, 0, 0x96, 0, 0x96, 0, 0x96, 0, 1, 0, 1, 0]
      ++ [0x96, 0, 0x96, 0, 3, 5, 0x14, 0, 0xCE, 0xFF, 0x96, 0, 1, 0, 1, 0]
      ++ [2, 0, 2, 0, 2, 0, 2, 0, 2, 0, 2, 0, 2, 0, 2, 0])

def smallAfterCal : State := calOperation small (State.reset.present smallCalFrame)

theorem test_small_wf : small.wf = true := by decide

theorem test_small_grid : workingGrid small smallCalFrame =
    [100, 100, 100, 100, 100, 100, 100, 100, 1281, 20, 100, 100] := by decide

theorem test_small_dense : denseGrid small smallNormFrame = workingGrid small smallNormFrame := by decide

/-- `mean = 191.75`, `thr = 57.525`. -/
theorem test_small_threshold : gridMean small (workingGrid small smallCalFrame) = 0x4067F80000000000#64 ∧
    deadThreshold small (workingGrid small smallCalFrame) = 0x404CC33333333333#64 := by decide +kernel

/-- CAL, step 1 of section 2.7: the mask is `{(1, 3)}`. -/
theorem test_cal_small_mask : smallAfterCal.dead =
    some [false, false, false, false, false, false, false, false, false, true, false, false] := by decide +kernel

/-- NORM, step 2 of section 2.7; bit patterns from section 2.3. -/
theorem test_norm_small_map : (normOperation small (smallAfterCal.present smallNormFrame)).tmap =
    some ([0x4045728F5C28F5C3, 0x4045728F5C28F5C3, 0x4045728F5C28F5C3, 0x4045728F5C28F5C3, 0x4045728F5C28F5C3,
      0x4045728F5C28F5C3, 0x4045728F5C28F5C3, 0x4045728F5C28F5C3, 0x40450495182A9931, 0x4045000000000000,
      0x4043A851EB851EB8, 0x4045728F5C28F5C3]) := by decide +kernel

/-! ### One step of each operation on the hardware itself -/

/-- What a step left, through one view. -/
def seen {α : Type} (view : State → α) : Host.Outcome State Fault Refusal → Option α
  | .next t => some (view t)
  | .fault _ => none
  | .refused _ => none

/-- CAL from reset: CAL_UPDATED, both flags set (R75). -/
theorem test_cal_step : seen (fun t => (t.outcome, t.status)) (step (State.reset.withFetchWord 8 1))
    = some (some .calUpdated, 0b11#2) := by decide

/-- NORM from reset: NO_CALIBRATION, no map (section 2.5). -/
theorem test_norm_step : seen (fun t => (t.outcome, t.tmap)) (step (State.reset.withFetchWord 8 3))
    = some (some .noCalibration, none) := by decide

theorem test_unrec00_step : seen State.outcome (step (State.reset.withFetchWord 8 0)) = some (some .unrecognized) := by
  decide

theorem test_unrec02_step : seen State.outcome (step (State.reset.withFetchWord 8 2)) = some (some .unrecognized) := by
  decide

theorem test_unrec04_step : seen State.outcome (step (State.reset.withFetchWord 8 7)) = some (some .unrecognized) := by
  decide

theorem test_unrec08_step : seen State.outcome (step (State.reset.withFetchWord 8 9)) = some (some .unrecognized) := by
  decide

theorem test_unrec10_step : seen State.outcome (step (State.reset.withFetchWord 8 0x13)) = some (some .unrecognized) := by
  decide

theorem test_unrec20_step : seen State.outcome (step (State.reset.withFetchWord 8 0x21)) = some (some .unrecognized) := by
  decide

theorem test_unrec40_step : seen State.outcome (step (State.reset.withFetchWord 8 0x43)) = some (some .unrecognized) := by
  decide

theorem test_unrec80_step : seen State.outcome (step (State.reset.withFetchWord 8 0xFF)) = some (some .unrecognized) := by
  decide

/-- The frame notation (R59, section 3.1): bytes 18 to 23 of `CAL fill=1000`. -/
theorem test_frame_bytes : [18, 19, 20, 21, 22, 23].map (frameByte Config.tdec ⟨1, 1000, none, []⟩)
    = [0xE8, 0x03, 0x01, 0x03, 0xE8, 0x03] := by decide

/-- Program D, step 3 (section 3.4): word 209 is −5, word 418 is 4. -/
theorem test_frame_px : [418, 419, 836, 837, 20].map
    (frameByte Config.tdec ⟨1, 0, none, [⟨1, 1, -5⟩, ⟨2, 2, 4⟩]⟩) = [0xFB, 0xFF, 0x04, 0x00, 0x01] := by decide

/-- A host read of DEAD after reset is refused (section 2.6, U5). -/
theorem test_dead_read_refused : step { State.reset with host := [.read (.dead 0)] } = .refused .deadBeforeDetection :=
  rfl

/-! ### Witnesses: for every statement with hypotheses, something that meets them all -/

/-- A store of whole size. -/
def zeroStore : List F64 := List.replicate 31930 0

theorem zeroStore_length : zeroStore.length = 31930 := List.length_replicate

/-- A state with a calibration, as CAL would leave it on a frame of zeros. -/
def calibrated : State :=
  { State.reset with calValid := true, dpDone := true, cal := some zeroStore, dead := some (List.replicate 31930 false) }

theorem i2f_zero : i2f 0 = 0#64 := by decide +kernel

theorem witness_calibrated_inv : calibrated.Inv where
  flags := rfl
  cal := by
    unfold CalInv
    rw [if_pos (by rfl)]
    refine ⟨zeroStore, rfl, zeroStore_length, fun x hx => ⟨0, by decide, by decide, ?_⟩⟩
    rw [List.eq_of_mem_replicate hx, i2f_zero]; rfl
  dead := by
    unfold DeadInv
    rw [if_pos (by rfl)]
    exact ⟨_, rfl, by rw [List.length_replicate]; decide⟩
  map := rfl
  frame := ⟨rfl, rfl⟩
  ports := by decide

theorem witness_RoundingIsNearestTiesToEven :
    0 < 10 ∧ roundUnits (3 * 2 ^ 1074 : Int).natAbs 10 < infBits ∧ isFinite 0#64 = true := by decide +kernel

theorem witness_IntegersConvertExactly : (-2 ^ 53 : Int).natAbs ≤ 2 ^ 53 := by decide

theorem witness_StatusViewOfFlags :
    (∃ s : State, s.host = [.read .status] ∧ s.busy = false) ∧ ∃ s : State, s.host = [.read .status] ∧ s.busy = true :=
  ⟨⟨{ State.reset with host := [.read .status] }, rfl, rfl⟩,
    ⟨{ State.reset with host := [.read .status], busy := true }, rfl, rfl⟩⟩

theorem witness_StatusReadsBothOrNone : ∃ s : State, s.Inv := ⟨calibrated, witness_calibrated_inv⟩

/-- Each clause, the last delivered index 31929 and the first refused one 31930. -/
theorem witness_DeadReadPort :
    (∃ s : State, s.host = [.read (.dead 0)] ∧ s.busy = true) ∧
      (∃ s : State, s.host = [.read (.dead 0)] ∧ s.busy = false ∧ s.dpDone = false) ∧
      (∃ s : State, s.host = [.read (.dead 31930)] ∧ s.busy = false ∧ s.dpDone = true ∧
        31930 ≤ (31930 : BitVec 15).toNat) ∧
      ∃ s : State, s.host = [.read (.dead 31929)] ∧ s.busy = false ∧ s.dpDone = true ∧
        (31929 : BitVec 15).toNat < 31930 ∧ ∃ l, s.dead = some l ∧ l[(31929 : BitVec 15).toNat]? = some false :=
  ⟨⟨{ calibrated with host := [.read (.dead 0)], busy := true }, rfl, rfl⟩,
    ⟨{ State.reset with host := [.read (.dead 0)] }, rfl, rfl, rfl⟩,
    ⟨{ calibrated with host := [.read (.dead 31930)] }, rfl, rfl, rfl, by decide⟩,
    ⟨{ calibrated with host := [.read (.dead 31929)] }, rfl, rfl, rfl, by decide,
      _, rfl, by rw [List.getElem?_replicate]; decide⟩⟩

/-- Each clause, the last index that is read, 31929, and the first refused one, 31930. -/
theorem witness_TmapBufferRead :
    (∃ s : State, s.host = [.read (.tmap 0)] ∧ s.busy = true) ∧
      (∃ s : State, s.host = [.read (.tmap 31930)] ∧ s.busy = false ∧ 31930 ≤ (31930 : BitVec 15).toNat) ∧
      (∃ s : State, s.host = [.read (.tmap 31929)] ∧ s.busy = false ∧ ¬ 31930 ≤ (31929 : BitVec 15).toNat ∧
        ∃ l, s.tmap = some l ∧ l[(31929 : BitVec 15).toNat]? = some 0) ∧
      (∃ s : State, s.host = [.read (.tmap 31929)] ∧ s.busy = false ∧ ¬ 31930 ≤ (31929 : BitVec 15).toNat ∧
        ∀ l, s.tmap = some l → l[(31929 : BitVec 15).toNat]? = none) :=
  ⟨⟨{ State.reset with host := [.read (.tmap 0)], busy := true }, rfl, rfl⟩,
    ⟨{ State.reset with host := [.read (.tmap 31930)] }, rfl, rfl, by decide⟩,
    ⟨{ State.reset with host := [.read (.tmap 31929)], tmap := some zeroStore }, rfl, rfl, by decide, _, rfl, by
      unfold zeroStore; rw [List.getElem?_replicate]; decide⟩,
    ⟨{ State.reset with host := [.read (.tmap 31929)] }, rfl, rfl, by decide, fun _ h => nomatch h⟩⟩

theorem witness_OutputPortsRead :
    (∃ s : State, s.host = [.read .busy]) ∧ (∃ s : State, s.host = [.read .done]) ∧
      (∃ s : State, s.host = [.read .tmapValid] ∧ s.busy = true) ∧
      (∃ s : State, s.host = [.read .tmapValid] ∧ s.busy = false) ∧
      (∃ s : State, s.host = [.read .outcome] ∧ s.busy = true) ∧
      (∃ s : State, s.host = [.read .outcome] ∧ s.busy = false ∧ s.outcome = some .temperature) ∧
      ∃ s : State, s.host = [.read .outcome] ∧ s.busy = false ∧ s.outcome = none :=
  ⟨⟨{ State.reset with host := [.read .busy] }, rfl⟩, ⟨{ State.reset with host := [.read .done] }, rfl⟩,
    ⟨{ State.reset with host := [.read .tmapValid], busy := true }, rfl, rfl⟩,
    ⟨{ State.reset with host := [.read .tmapValid] }, rfl, rfl⟩,
    ⟨{ State.reset with host := [.read .outcome], busy := true }, rfl, rfl⟩,
    ⟨{ State.reset with host := [.read .outcome], outcome := some .temperature }, rfl, rfl, rfl⟩,
    ⟨{ State.reset with host := [.read .outcome] }, rfl, rfl, rfl⟩⟩

theorem witness_MapSerialisesLittleEndian : 7 < 8 := by decide

theorem witness_RunsDependOnTupleAndFramesOnly :
    ∃ s s' : State, s.tuple = s'.tuple ∧ s ≠ s' :=
  ⟨State.reset, { State.reset with frame := [(20, 1)], done := true }, rfl, by decide⟩

theorem witness_BulkReadsFillFrame :
    ∃ (s : State) (c : List Byte), c.length = 16224 ∧ s.busy = false ∧
      s.host = [bulkRead Config.tdec 0 c, bulkRead Config.tdec 1 c, bulkRead Config.tdec 2 c, bulkRead Config.tdec 3 c] :=
  ⟨{ State.reset with
      host := [bulkRead Config.tdec 0 (List.replicate 16224 7), bulkRead Config.tdec 1 (List.replicate 16224 7),
        bulkRead Config.tdec 2 (List.replicate 16224 7), bulkRead Config.tdec 3 (List.replicate 16224 7)] },
    List.replicate 16224 7, List.length_replicate, rfl, rfl⟩

/-- Each clause; the last address that exists is 64895. -/
theorem witness_HostWritesOfFrame :
    (∃ s : State, s.host = [.write 0 [1]] ∧ s.busy = true) ∧
      (∃ s : State, s.host = [.write 64896 [1]] ∧ s.busy = false ∧ 64896 < 64896 + [(1 : Byte)].length) ∧
      ∃ s : State, s.host = [.write 64895 [1]] ∧ s.busy = false ∧ ¬ 64896 < 64895 + [(1 : Byte)].length :=
  ⟨⟨{ State.reset with host := [.write 0 [1]], busy := true }, rfl, rfl⟩,
    ⟨{ State.reset with host := [.write 64896 [1]] }, rfl, rfl, by decide⟩,
    ⟨{ State.reset with host := [.write 64895 [1]] }, rfl, rfl, by decide⟩⟩

theorem witness_OnlyTheHostWritesFrame :
    ∃ s t : State, step s = .next t ∧ ∃ a, t.frame.read a ≠ s.frame.read a :=
  ⟨{ State.reset with host := [.write 5 [1]] }, { State.reset with frame := [(5, 1)] }, rfl, 5, by decide⟩

theorem witness_DecodeOfEncodedFrame : (21 : Nat) ≠ 20 ∧ Memory.wf [(20, 7), (21, 1)] = true := by decide

theorem witness_OnlyWholeFramesDecode :
    (∃ l : List Byte, l.length = 64896) ∧ ∃ l : List Byte, l.length ≠ 64896 :=
  ⟨⟨List.replicate 64896 0, List.length_replicate⟩, ⟨[], by decide⟩⟩

theorem witness_RawGridElement : 155 < 156 ∧ 207 < 208 := by decide

theorem witness_CroppedCellsTakeNoPart : SameNeeded [] [(412, 1)] ∧ (154 < 155 ∧ 205 < 206) := by
  refine ⟨fun r c _ hc => ?_, by decide⟩
  have h1 : (2 * (208 * r + c) == 412) = false := by simp; omega
  have h2 : (2 * (208 * r + c) + 1 == 412) = false := by simp; omega
  simp only [Memory.read, List.lookup, h1, h2, and_self]

theorem witness_StatusPixelHoldsOpcode : decode [(20, 1), (21, 3)] = .cal ∧ decode [(20, 3), (21, 4)] = .norm := by decide

theorem witness_DenseGridIsWorkingGrid : Memory.wf [(20, 1), (64895, 9)] = true := by decide

/-- A frame line under its general name, and one under a mnemonic. -/
theorem witness_FrameLineRunsItsOperation :
    (∃ (s : State) (l : FrameLine), s.busy = false ∧ lineFrame Config.tdec (.frame l) = some l ∧
        s.host = lineMoves Config.tdec (.frame l) ++ [.idle]) ∧
      ∃ (s : State) (l : FrameLine), s.busy = false ∧ lineFrame Config.tdec (.norm 1100 none []) = some l ∧
        s.host = lineMoves Config.tdec (.norm 1100 none []) ++ [] :=
  ⟨⟨{ State.reset with host := lineMoves Config.tdec (.frame ⟨1, 1000, none, []⟩) ++ [.idle] }, _, rfl, rfl, rfl⟩,
    ⟨{ State.reset with host := lineMoves Config.tdec (.norm 1100 none []) ++ [] }, _, rfl, rfl, rfl⟩⟩

/-- Without and with `b21`, with two `px` on one word and one on the last word of the grid. -/
theorem witness_FrameImageFollowsNotation :
    FrameLine.wf Config.tdec ⟨1, 1000, none, [⟨7, 9, 100⟩, ⟨7, 9, 200⟩, ⟨155, 207, 5⟩]⟩ = true ∧
      FrameLine.wf Config.tdec ⟨3, 1100, some 0x7F, [⟨0, 10, 4⟩]⟩ = true := by decide

theorem witness_ProgramLinesGiveTheirMoves : (ProgramLine.unrec 2 1100 none []).wf Config.tdec = true := by decide

theorem witness_ProgramRunsTopToBottom :
    ∃ (s : State) (prog : List FrameLine), s.busy = false ∧
      s.host = programMoves Config.tdec (prog.map ProgramLine.frame) ∧ prog.length = 2 :=
  ⟨{ State.reset with
      host := programMoves Config.tdec (([⟨1, 1000, none, []⟩, ⟨3, 1100, none, []⟩] : List FrameLine).map .frame) },
    [⟨1, 1000, none, []⟩, ⟨3, 1100, none, []⟩], rfl, rfl, rfl⟩

theorem witness_CalCompletes :
    (∃ s : State, s.dpDone = true) ∧ (∃ s : State, s.dpDone = false) ∧ 154 < 155 ∧ 205 < 206 :=
  ⟨⟨calibrated, rfl⟩, ⟨State.reset, rfl⟩, by decide, by decide⟩

theorem witness_CalFrame : ∃ s t : State, exec .cal s = .next t ∧ s.dpDone = true := ⟨calibrated, _, rfl, rfl⟩

theorem witness_CaptureReplacesStore : ∃ s s' : State, s.frame = s'.frame ∧ s ≠ s' :=
  ⟨State.reset, { State.reset with dpDone := true }, rfl, by decide⟩

theorem witness_SumIsExactInAnyOrder : ∃ l : List Int, l.Perm (workingGrid Config.tdec [(20, 1)]) := ⟨_, .refl _⟩

/-- Each clause: a uniform grid, a grid below zero with a pixel at the mean, a grid of zero sum. -/
theorem witness_DeadTestCornerCases :
    (∃ g : List Int, g.length = 31930 ∧ (∀ v ∈ g, -32768 ≤ v ∧ v ≤ 32767) ∧ 0 ≤ (1000 : Int) ∧ ∀ x ∈ g, x = 1000) ∧
      (∃ g : List Int, g.length = 31930 ∧ (∀ v ∈ g, -32768 ≤ v ∧ v ≤ 32767) ∧ gridSum g < 0 ∧
        -1000 ∈ g ∧ 31930 * (-1000) ≤ gridSum g) ∧
      ∃ g : List Int, g.length = 31930 ∧ (∀ v ∈ g, -32768 ≤ v ∧ v ≤ 32767) ∧ gridSum g = 0 ∧ 0 ∈ g := by
  have sum (v : Int) : gridSum (List.replicate 31930 v) = 31930 * v := by
    unfold gridSum; rw [List.sum_replicate, nsmul_eq_mul]; rfl
  have range (w : Int) (hw : -32768 ≤ w ∧ w ≤ 32767) : ∀ v ∈ List.replicate 31930 w, -32768 ≤ v ∧ v ≤ 32767 :=
    fun v hv => by rw [List.eq_of_mem_replicate hv]; exact hw
  have mem (w : Int) : w ∈ List.replicate 31930 w := List.mem_replicate.mpr ⟨by decide, rfl⟩
  exact ⟨⟨List.replicate 31930 1000, List.length_replicate, range _ (by decide), by decide,
      fun x hx => List.eq_of_mem_replicate hx⟩,
    ⟨List.replicate 31930 (-1000), List.length_replicate, range _ (by decide), by rw [sum]; decide, mem _,
      by rw [sum]⟩,
    ⟨List.replicate 31930 0, List.length_replicate, range _ (by decide), by rw [sum]; decide, mem _⟩⟩

theorem witness_DeadTestIsIntegerTest : (workingGrid Config.tdec [])[31929]? = some 0 := by
  rw [workingGrid_getElem?, if_pos (by decide)]; decide

theorem witness_LaterCalibrationsKeepMask :
    ∃ s : State, s.dpDone = false ∧ decode [(20, 1)] = .cal ∧ decode [(20, 1), (22, 5)] = .cal :=
  ⟨State.reset, rfl, by decide, by decide⟩

theorem witness_NormCompletes :
    ∃ s : State, s.calValid = true ∧ ∃ l, s.cal = some l ∧ l.length = 31930 ∧ l[206 * 154 + 205]? = some 0 :=
  ⟨calibrated, rfl, zeroStore, rfl, zeroStore_length, by unfold zeroStore; rw [List.getElem?_replicate]; decide⟩

theorem witness_NormWithoutCalibration : ∃ s : State, s.calValid = false := ⟨State.reset, rfl⟩

theorem witness_NormAndUnrecFrame :
    (∃ s t : State, Instr.norm ≠ .cal ∧ exec .norm s = .next t) ∧
      ∃ s t : State, Instr.unrec80 5 ≠ .cal ∧ exec (.unrec80 5) s = .next t :=
  ⟨⟨calibrated, _, by decide, rfl⟩, ⟨calibrated, _, by decide, rfl⟩⟩

theorem witness_DifferenceIsExact : -32768 ≤ (32767 : Int) ∧ (32767 : Int) ≤ 32767 ∧ -32768 ≤ (-32768 : Int) ∧
    (-32768 : Int) ≤ 32767 := by decide

theorem witness_CalThenNormGivesTransform : decode [(20, 1)] = .cal ∧ decode [(20, 3)] = .norm := by decide

theorem witness_TransformRangeAndTable : (-65535 : Int) ≤ -65535 ∧ (-65535 : Int) ≤ 65535 ∧ (65535 : Int) ≤ 65535 := by
  decide

theorem witness_LanesAreIndependent :
    ∃ s s' t t' : State, s.calValid = true ∧ s'.calValid = true ∧ s.cal = some zeroStore ∧ s'.cal = some zeroStore ∧
      zeroStore.length = 31930 ∧ rawPixel Config.tdec s.frame 154 205 = rawPixel Config.tdec s'.frame 154 205 ∧
      exec .norm s = .next t ∧ exec .norm s' = .next t' ∧ s ≠ s' :=
  ⟨calibrated, { calibrated with frame := [(0, 9)] }, _, _, rfl, rfl, rfl, rfl, zeroStore_length, by decide, rfl, rfl,
    fun h => absurd (congrArg State.frame h) (by decide)⟩

theorem witness_NormRepeatsAndIgnoresMask : decode [(20, 3), (40, 1)] = .norm := by decide

theorem witness_OutcomeOfEveryOperation :
    (∃ s : State, statusOf s.frame = 1 ∧ s.dpDone = true) ∧ (∃ s : State, statusOf s.frame = 3 ∧ s.calValid = true) ∧
      (∃ s : State, statusOf s.frame = 3 ∧ s.calValid = false) ∧
      ∃ s : State, statusOf s.frame ≠ 1 ∧ statusOf s.frame ≠ 3 :=
  ⟨⟨{ calibrated with frame := [(20, 1)] }, by decide, rfl⟩, ⟨{ calibrated with frame := [(20, 3)] }, by decide, rfl⟩,
    ⟨{ State.reset with frame := [(20, 3)] }, by decide, rfl⟩, ⟨State.reset, by decide, by decide⟩⟩

theorem witness_NoCalibrationOnlyBeforeFirstCal : ∃ s : State, s.calValid = true := ⟨calibrated, rfl⟩

theorem witness_ResetEventAtAnyTime :
    (∃ s : State, s.host = [.rst] ∧ s.busy = true) ∧ ∃ s : State, s.host = [.rst] ∧ s.busy = false :=
  ⟨⟨{ calibrated with host := [.rst], busy := true }, rfl, rfl⟩, ⟨{ calibrated with host := [.rst] }, rfl, rfl⟩⟩

theorem witness_OnlyResetClearsFlags :
    ∃ s t : State, step s = .next t ∧ s.calValid = true ∧ t.calValid = false ∧ s.dpDone = true ∧ t.dpDone = false :=
  ⟨{ calibrated with host := [.rst] }, _, rfl, rfl, rfl, rfl, rfl⟩

theorem witness_CalibrationIsLatestCalFrame :
    decode [(20, 1)] = .cal ∧ ∀ x ∈ [([(20, 3)] : Memory), []], decode x ≠ .cal := by decide

theorem witness_MaskIsFirstCalFrame :
    ∃ s : State, s.dpDone = false ∧ (∀ x ∈ [([(20, 3)] : Memory), []], decode x ≠ .cal) ∧ decode [(20, 1)] = .cal :=
  ⟨State.reset, rfl, by decide, by decide⟩

theorem witness_StartOnlyWhenIdle :
    (∃ s : State, s.host = [.start] ∧ s.busy = false) ∧ ∃ s : State, s.host = [.start] ∧ s.busy = true :=
  ⟨⟨{ State.reset with host := [.start] }, rfl, rfl⟩, ⟨{ State.reset with host := [.start], busy := true }, rfl, rfl⟩⟩

theorem witness_StepRunsDecodedOperation :
    (∃ s : State, s.host = [] ∧ s.busy = true) ∧ (∃ s : State, s.host = [] ∧ s.busy = false) ∧
      (∃ s : State, s.host = [.idle] ∧ s.busy = true) ∧ ∃ s : State, s.host = [.idle] ∧ s.busy = false :=
  ⟨⟨{ State.reset with busy := true }, rfl, rfl⟩, ⟨State.reset, rfl, rfl⟩,
    ⟨{ State.reset with host := [.idle], busy := true }, rfl, rfl⟩, ⟨{ State.reset with host := [.idle] }, rfl, rfl⟩⟩

theorem witness_StartedOperationEnds : ∃ s : State, s.busy = true ∧ s.host = [] :=
  ⟨State.reset.withFetchWord 8 3, rfl, rfl⟩

theorem witness_StepKeepsInvariant : ∃ s t : State, s.Inv ∧ step s = .next t :=
  ⟨calibrated, _, witness_calibrated_inv, rfl⟩

end Sys2Proof.Tests
end

section
/-! PROOFS. Parameters, numbers and rounding (spec/00_scope.md R5 to R9). The one idea of the rounding part: with `t` the
last place of the dividend, every binary64 magnitude is a multiple of `2^t` units or lies below `2^52` places, so the
nearest multiple of `2^t` is the nearest binary64. -/

namespace Sys2Proof.Machine

/-! ### Nearest binary64 -/

/-- Of all multiples of the divisor the nearest-even quotient names a nearest one, and the even one of two. -/
theorem divHalfEven_nearest (n d j : Nat) (hd : 0 < d) :
    ((n : Int) - divHalfEven n d * d).natAbs ≤ ((n : Int) - j * d).natAbs ∧
      (((n : Int) - divHalfEven n d * d).natAbs = ((n : Int) - j * d).natAbs → j ≠ divHalfEven n d →
        divHalfEven n d % 2 = 0) := by
  obtain ⟨hlo, hhi, heven⟩ := divHalfEven_spec n d hd
  set q := divHalfEven n d
  rw [← Nat.cast_mul, ← Nat.cast_mul]
  rcases Nat.lt_trichotomy j q with h | h | h
  · have hstep : j * d + d ≤ q * d := by rw [← Nat.succ_mul]; exact Nat.mul_le_mul_right d h
    omega
  · subst h
    exact ⟨le_rfl, fun _ hne => absurd rfl hne⟩
  · have hstep : q * d + d ≤ j * d := by rw [← Nat.succ_mul]; exact Nat.mul_le_mul_right d h
    omega

/-- A binary64 magnitude is a multiple of `2^t`, or lies below `2^52` times it with `t` not the first place. -/
theorem magUnits_multiple_or_lt (y : F64) (t : Nat) :
    (∃ j, magUnits y = j * 2 ^ t) ∨ t ≠ 0 ∧ magUnits y < 2 ^ 52 * 2 ^ t := by
  have hfrac : fracField y < 2 ^ 52 := Nat.mod_lt _ (Nat.two_pow_pos 52)
  by_cases ht : t = 0
  · exact .inl ⟨magUnits y, by rw [ht, Nat.pow_zero, Nat.mul_one]⟩
  unfold magUnits
  split
  · exact .inr ⟨ht, lt_of_lt_of_le hfrac (Nat.le_mul_of_pos_right _ (Nat.two_pow_pos t))⟩
  · rcases Nat.lt_or_ge (expField y - 1) t with hlt | hge
    · refine .inr ⟨ht, ?_⟩
      calc (2 ^ 52 + fracField y) * 2 ^ (expField y - 1)
          < 2 ^ 53 * 2 ^ (expField y - 1) := Nat.mul_lt_mul_of_pos_right (by omega) (Nat.two_pow_pos _)
        _ = 2 ^ 52 * 2 ^ (expField y - 1 + 1) := by rw [Nat.pow_succ 2 (expField y - 1)]; ring
        _ ≤ 2 ^ 52 * 2 ^ t := Nat.mul_le_mul_left _ (Nat.pow_le_pow_right (by decide) hlt)
    · obtain ⟨k, hk⟩ := Nat.exists_eq_add_of_le' hge
      exact .inl ⟨(2 ^ 52 + fracField y) * 2 ^ k, by rw [hk, Nat.pow_add, Nat.mul_assoc]⟩

/-- The significand of `RN`, in units of the last place of `n / d`. -/
def roundedSignificand (n d : Nat) : Nat := divHalfEven n (d * 2 ^ lastPlace n d)

/-- The magnitude of `RN` in units of `2^-1074`. -/
def roundedMag (n d : Nat) : Nat := roundedSignificand n d * 2 ^ lastPlace n d

theorem roundUnits_eq (n d : Nat) : roundUnits n d = lastPlace n d * 2 ^ 52 + roundedSignificand n d := rfl

/-- The exact value of a rounded quotient: its magnitude with the sign of the dividend. -/
theorem units_roundQuot_eq_sign_mul {num : Int} {den : Nat} (hd : 0 < den)
    (hb : roundUnits num.natAbs den < infBits) :
    units (roundQuot num den) = num.sign * roundedMag num.natAbs den :=
  (units_roundQuot num den hd hb).2

/-- No binary64 magnitude is nearer to `n / d` than the rounded one, and at a tie the rounded significand is even. -/
theorem roundedMag_nearest (n d : Nat) (hd : 0 < d) (y : F64) :
    ((n : Int) - roundedMag n d * d).natAbs ≤ ((n : Int) - magUnits y * d).natAbs ∧
      (((n : Int) - roundedMag n d * d).natAbs = ((n : Int) - magUnits y * d).natAbs →
        magUnits y ≠ roundedMag n d → roundedSignificand n d % 2 = 0) := by
  have hplace : 0 < d * 2 ^ lastPlace n d := Nat.mul_pos hd (Nat.two_pow_pos _)
  have hnear (j : Nat) := divHalfEven_nearest n (d * 2 ^ lastPlace n d) j hplace
  rw [← roundedSignificand] at hnear
  have hscale : ∀ j : Nat, ((j * 2 ^ lastPlace n d : Nat) : Int) * d = j * (d * 2 ^ lastPlace n d : Nat) := by
    intro j; push_cast; ring
  have hround : (roundedMag n d : Int) * d = roundedSignificand n d * (d * 2 ^ lastPlace n d : Nat) := hscale _
  rw [hround]
  rcases magUnits_multiple_or_lt y (lastPlace n d) with ⟨j, hj⟩ | ⟨ht, hlt⟩
  · rw [hj, hscale]
    exact ⟨(hnear j).1, fun htie hne => (hnear j).2 htie fun h => hne (by rw [h]; rfl)⟩
  · have hlow : 2 ^ 52 * (d * 2 ^ lastPlace n d) ≤ n := (lastPlace_spec n d hd).2 ht
    have hbelow : magUnits y * d < 2 ^ 52 * (d * 2 ^ lastPlace n d) :=
      calc magUnits y * d < 2 ^ 52 * 2 ^ lastPlace n d * d := Nat.mul_lt_mul_of_pos_right hlt hd
        _ = 2 ^ 52 * (d * 2 ^ lastPlace n d) := by ring
    have hgrid := (hnear (2 ^ 52)).1
    rw [← Nat.cast_mul] at hgrid
    rw [← Nat.cast_mul (magUnits y) d]
    omega

/-- `RN` of zero has magnitude zero. -/
@[simp] theorem roundedSignificand_zero (d : Nat) : roundedSignificand 0 d = 0 := by
  simp [roundedSignificand, divHalfEven]

@[simp] theorem roundedMag_zero (d : Nat) : roundedMag 0 d = 0 := by simp [roundedMag]

/-- A value is its magnitude with one sign or the other. -/
theorem units_eq_or (x : F64) : units x = magUnits x ∨ units x = -(magUnits x : Int) := by
  unfold units; split <;> simp

/-- The last bit of a rounded quotient is the last bit of its significand: the sign and the exponent field stand above it. -/
theorem roundQuot_toNat_mod_two {num : Int} {den : Nat} (hb : roundUnits num.natAbs den < infBits) :
    (roundQuot num den).toNat % 2 = roundedSignificand num.natAbs den % 2 := by
  unfold roundQuot
  rw [Nat.min_eq_left (Nat.le_of_lt hb), BitVec.toNat_ofNat, roundUnits_eq]
  split <;> omega

/-- Taking the sign off the dividend keeps the distance to a value of its own sign. -/
theorem natAbs_sub_sign_mul (num : Int) (k d : Nat) (hk : num = 0 → k = 0) :
    (num - num.sign * k * d).natAbs = ((num.natAbs : Int) - k * d).natAbs := by
  rcases Int.lt_trichotomy num 0 with h | h | h
  · rw [Int.sign_eq_neg_one_of_neg h, neg_one_mul, neg_mul]; omega
  · simp [h, hk h]
  · rw [Int.sign_eq_one_of_pos h, one_mul]; omega

/-- A signed value is no nearer to `num / den` than its magnitude is to the magnitude of `num / den`. -/
theorem natAbs_sub_magUnits_le (num : Int) (d : Nat) (y : F64) :
    ((num.natAbs : Int) - magUnits y * d).natAbs ≤ (num - units y * d).natAbs := by
  have hnonneg : (0 : Int) ≤ magUnits y * d := by positivity
  rcases units_eq_or y with h | h <;> rw [h]
  · omega
  · rw [neg_mul]; omega

/-- A value of the other sign is as near only if it, or the dividend, is zero. -/
theorem units_eq_sign_mul_of_natAbs_eq {num : Int} {d : Nat} {y : F64} (hd : 0 < d) (hnum : num ≠ 0)
    (h : ((num.natAbs : Int) - magUnits y * d).natAbs = (num - units y * d).natAbs) :
    units y = num.sign * magUnits y := by
  by_cases hzero : magUnits y = 0
  · rcases units_eq_or y with hy | hy <;> simp [hy, hzero]
  have hpos : (0 : Int) < magUnits y * d := by positivity
  rcases units_eq_or y with hy | hy <;> rw [hy] at h ⊢ <;> rcases Int.lt_or_gt_of_ne hnum with hs | hs
  · omega
  · rw [Int.sign_eq_one_of_pos hs, one_mul]
  · rw [Int.sign_eq_neg_one_of_neg hs, neg_one_mul]
  · rw [neg_mul] at h; omega

/-- Settles O3: magnitudes first (`roundedMag_nearest`), then the sign, which only moves a value further away. -/
theorem roundingIsNearestTiesToEven : Obligations.RoundingIsNearestTiesToEven := by
  intro num den hd hb
  refine ⟨(units_roundQuot num den hd hb).1, fun y _ => ?_⟩
  obtain ⟨hle, htie⟩ := roundedMag_nearest num.natAbs den hd y
  have hmag := natAbs_sub_magUnits_le num den y
  rw [roundQuot_toNat_mod_two hb, units_roundQuot_eq_sign_mul hd hb,
    natAbs_sub_sign_mul num _ den (by rintro rfl; simp)]
  refine ⟨hle.trans hmag, fun heq hne => ?_⟩
  by_cases hnum : num = 0
  · simp [hnum]
  · have hy : units y = num.sign * magUnits y :=
      units_eq_sign_mul_of_natAbs_eq hd hnum (le_antisymm hmag (heq ▸ hle))
    exact htie (le_antisymm hle (heq ▸ hmag)) fun h => hne (by rw [hy, h])

/-! ### Exact conversions -/

/-- A value below `2^53` places has its last place no higher. -/
theorem lastPlace_le {n d k : Nat} (hd : 0 < d) (h : n < 2 ^ 53 * (d * 2 ^ k)) : lastPlace n d ≤ k := by
  by_contra! hlt
  have hlow : 2 ^ 52 * (d * 2 ^ lastPlace n d) ≤ n := (lastPlace_spec n d hd).2 (by omega)
  have hpow : 2 ^ 52 * (d * 2 ^ (k + 1)) ≤ 2 ^ 52 * (d * 2 ^ lastPlace n d) := by gcongr <;> omega
  rw [Nat.pow_succ 2 k, ← Nat.mul_assoc d] at hpow
  omega

/-- A low enough last place keeps the magnitude bits below those of infinity. -/
theorem roundUnits_lt_infBits {n d : Nat} (hd : 0 < d) (h : lastPlace n d ≤ 2044) : roundUnits n d < infBits := by
  have hsig : roundedSignificand n d ≤ 2 ^ 53 := (significand_bounds n d hd).1
  rw [roundUnits_eq, infBits]
  omega

/-- A multiple of its last place is its own rounding. -/
theorem roundedMag_mul_of_dvd {n d : Nat} (hd : 0 < d) (h : d * 2 ^ lastPlace n d ∣ n) : roundedMag n d * d = n := by
  obtain ⟨q, hq⟩ := h
  have hsig : roundedSignificand n d = q := by
    rw [roundedSignificand]
    nth_rw 1 [hq]
    rw [Nat.mul_comm, divHalfEven_mul q _ (Nat.mul_pos hd (Nat.two_pow_pos _))]
  rw [roundedMag, hsig, Nat.mul_assoc, Nat.mul_comm _ d, Nat.mul_comm q, ← hq]

/-- A multiple of `2^k` units below `2^53` times it is represented exactly, far enough below the largest binary64. -/
theorem roundQuot_exact {num : Int} {den k : Nat} (hd : 0 < den) (hk : k ≤ 2044)
    (hlt : num.natAbs < 2 ^ 53 * (den * 2 ^ k)) (hdvd : den * 2 ^ k ∣ num.natAbs) :
    isFinite (roundQuot num den) = true ∧ units (roundQuot num den) * den = num := by
  have hplace : lastPlace num.natAbs den ≤ k := lastPlace_le hd hlt
  have hb := roundUnits_lt_infBits hd (hplace.trans hk)
  have hmag : roundedMag num.natAbs den * den = num.natAbs :=
    roundedMag_mul_of_dvd hd ((Nat.mul_dvd_mul_left den (Nat.pow_dvd_pow 2 hplace)).trans hdvd)
  refine ⟨(units_roundQuot num den hd hb).1, ?_⟩
  rw [units_roundQuot_eq_sign_mul hd hb, mul_assoc, ← Nat.cast_mul, hmag, Int.sign_mul_natAbs]

/-- An integer up to `2^53`, scaled by `2^e`, stands on a place fine enough for it; `2^53` itself takes the place one
higher than the integers below it. -/
theorem exists_place_of_le {m : Nat} (h : m ≤ 2 ^ 53) (e : Nat) :
    ∃ k ≤ e + 1, m * 2 ^ e < 2 ^ 53 * (1 * 2 ^ k) ∧ 1 * 2 ^ k ∣ m * 2 ^ e := by
  simp only [Nat.one_mul]
  rcases Nat.lt_or_eq_of_le h with hlt | rfl
  · exact ⟨e, Nat.le_succ e, Nat.mul_lt_mul_of_pos_right hlt (Nat.two_pow_pos e), Nat.dvd_mul_left _ _⟩
  · refine ⟨e + 1, le_rfl, ?_, ?_⟩
    · exact Nat.mul_lt_mul_of_pos_left (Nat.pow_lt_pow_succ (by decide)) (Nat.two_pow_pos 53)
    · rw [← Nat.pow_add]
      exact Nat.pow_dvd_pow 2 (by omega)

theorem unitsPerOne_cast : (unitsPerOne : Int) = 2 ^ 1074 := by rw [unitsPerOne, Nat.cast_pow, Nat.cast_ofNat]

/-- `i2f` is exact up to `2^53` (R8). -/
theorem i2f_exact {n : Int} (h : n.natAbs ≤ 2 ^ 53) :
    isFinite (i2f n) = true ∧ units (i2f n) = n * unitsPerOne := by
  have habs : (n * (unitsPerOne : Int)).natAbs = n.natAbs * 2 ^ 1074 := by
    rw [Int.natAbs_mul, Int.natAbs_natCast, unitsPerOne]
  obtain ⟨k, hk, hlt, hdvd⟩ := exists_place_of_le h 1074
  rw [← habs] at hlt hdvd
  have hround := roundQuot_exact Nat.one_pos (hk.trans (by decide)) hlt hdvd
  rwa [Nat.cast_one, mul_one] at hround

/-- Settles O4: the scaled integer is a multiple of its last place, so rounding leaves it as it is. -/
theorem integersConvertExactly : Obligations.IntegersConvertExactly := by
  intro n hn
  rw [← unitsPerOne_cast]
  exact i2f_exact hn

/-! ### Parameters and constants -/

/-- A chunk holds whole raw rows: chunk `i` is rows `39 i` to `39 i + 38` (R5). -/
theorem chunk_rows (i k : Nat) (hk : k < 16224) :
    39 * i ≤ (chunkBase Config.tdec i + k) / 416 ∧ (chunkBase Config.tdec i + k) / 416 ≤ 39 * i + 38 := by
  have hbase : chunkBase Config.tdec i = 16224 * i := rfl
  omega

/-- Settles O1: the values compute, and a chunk is 39 raw rows of 416 bytes (`chunk_rows`). -/
theorem parametersOfThisHardware : Obligations.ParametersOfThisHardware := by
  unfold Obligations.ParametersOfThisHardware
  refine ⟨rfl, rfl, rfl, rfl, rfl, rfl, rfl, rfl, rfl, rfl, rfl, rfl, rfl, rfl, rfl, rfl, rfl, ?_⟩
  exact fun i k _ hk => chunk_rows i k hk

/-- `K_GAIN` is the binary64 nearest 0.0179 (R6). -/
theorem kGain_eq_roundQuot : Config.tdec.kGain = roundQuot (179 * 2 ^ 1074) 10000 := by decide +kernel

/-- `K_DEAD` is the binary64 nearest 0.3 (R6). -/
theorem kDead_eq_roundQuot : Config.tdec.kDead = roundQuot (3 * 2 ^ 1074) 10 := by decide +kernel

/-- `K_OFFSET` is 42 converted to binary64 (R6). -/
theorem kOffset_eq_i2f : Config.tdec.kOffset = i2f 42 := by decide +kernel

/-- The exact value of `K_GAIN` (R6). -/
theorem units_kGain : units Config.tdec.kGain * 2 ^ 55 = 644915466639455 * 2 ^ 1074 := by decide +kernel

/-- The exact value of `K_DEAD` (R6). -/
theorem units_kDead : units Config.tdec.kDead * 2 ^ 54 = 5404319552844595 * 2 ^ 1074 := by decide +kernel

/-- The exact value of `K_OFFSET` (R6). -/
theorem units_kOffset : units Config.tdec.kOffset = 42 * 2 ^ 1074 := by
  rw [kOffset_eq_i2f]
  exact (integersConvertExactly 42 (by decide)).2

/-- `K_OFFSET` is the binary64 nearest 42.0 (R6). -/
theorem kOffset_eq_roundQuot : Config.tdec.kOffset = roundQuot (42 * 2 ^ 1074) 1 := by
  rw [kOffset_eq_i2f, i2f, unitsPerOne_cast]

/-- Settles O2: the rounding is evaluated on the two inexact literals, and the integer 42 converts exactly. -/
theorem constantsAreNearestLiterals : Obligations.ConstantsAreNearestLiterals :=
  ⟨rfl, rfl, rfl, kGain_eq_roundQuot, kOffset_eq_roundQuot, kDead_eq_roundQuot, units_kGain, units_kOffset, units_kDead⟩

end Sys2Proof.Machine
end

section
/-! PROOFS. State, flags and runs (spec/10_state.md R12 to R22). Two ideas carry this part. A step has one of five effects
(`StepEffect`), and every safety statement about a step is a case split over them. An operation other than CAL only ends
(`afterOperation_eq_finish`), so that presenting the next frame finds the state as if it had not run
(`runFrames_append_of_ne_cal`). -/

namespace Sys2Proof.Machine

/-! ### What CAL leaves, and that the other operations only end -/

@[simp] theorem calOperation_calValid (p : Config.Params) (s : State) : (calOperation p s).calValid = true := by
  simp [calOperation]

@[simp] theorem calOperation_dpDone (p : Config.Params) (s : State) : (calOperation p s).dpDone = true := by
  simp [calOperation]

@[simp] theorem calOperation_cal (p : Config.Params) (s : State) :
    (calOperation p s).cal = some ((workingGrid p s.frame).map i2f) := by
  simp [calOperation]

@[simp] theorem calOperation_dead (p : Config.Params) (s : State) :
    (calOperation p s).dead = if s.dpDone then s.dead else some (deadMask p (workingGrid p s.frame)) := by
  simp [calOperation]

/-- CAL leaves FRAME alone (R42). -/
@[simp] theorem calOperation_frame (p : Config.Params) (s : State) : (calOperation p s).frame = s.frame := by
  simp [calOperation]

@[simp] theorem afterOperation_cal (s : State) : afterOperation .cal s = calOperation Config.tdec s := rfl

/-- NORM and UNREC end with an outcome and perhaps a map, and do nothing else (R67, R90, R91). -/
theorem afterOperation_eq_finish {i : Instr} (hi : i ≠ .cal) (s : State) :
    ∃ o map, afterOperation i s = s.finish o map := by
  obtain ⟨hcal, -⟩ | ⟨-, h⟩ | ⟨-, -, h⟩ := afterOperation_cases i s
  · exact absurd hcal hi
  · rw [h, normOperation]
    split
    · exact ⟨_, _, rfl⟩
    · exact ⟨_, none, rfl⟩
  · exact ⟨_, none, h⟩

/-- Settles O34: such an operation only ends, and the end touches the outputs alone. -/
theorem normAndUnrecFrame : Obligations.NormAndUnrecFrame := by
  intro i s t hi ht
  rw [exec_eq_next, Host.Outcome.next.injEq] at ht
  obtain ⟨o, map, h⟩ := afterOperation_eq_finish hi s
  subst ht
  simp [h]

/-- No operation changes FRAME (R42). -/
@[simp] theorem afterOperation_frame (i : Instr) (s : State) : (afterOperation i s).frame = s.frame := by
  by_cases hi : i = .cal
  · simp [hi]
  · obtain ⟨o, map, h⟩ := afterOperation_eq_finish hi s
    simp [h]

/-- No operation clears `CAL_VALID` (R12). -/
theorem afterOperation_calValid_of_true (i : Instr) {s : State} (hs : s.calValid = true) :
    (afterOperation i s).calValid = true := by
  by_cases hi : i = .cal
  · simp [hi]
  · obtain ⟨o, map, h⟩ := afterOperation_eq_finish hi s
    simp [h, hs]

/-- Once `DP_DONE` is 1 no operation clears it or changes the mask (R13, R82). -/
theorem afterOperation_mask_of_dpDone (i : Instr) {s : State} (hs : s.dpDone = true) :
    (afterOperation i s).dpDone = true ∧ (afterOperation i s).dead = s.dead := by
  by_cases hi : i = .cal
  · simp [hi, hs]
  · obtain ⟨o, map, h⟩ := afterOperation_eq_finish hi s
    simp [h, hs]

/-! ### The map and the outcome (R122) -/

theorem tmapValid_iff (s : State) : s.tmapValid = true ↔ s.outcome = some .temperature := by
  simp [State.tmapValid]

/-- Every operation leaves a whole map with TEMPERATURE and none with any other outcome, whatever the state before. -/
theorem afterOperation_mapInv (i : Instr) (s : State) : MapInv (afterOperation i s) := by
  unfold MapInv State.tmapValid
  obtain ⟨-, h⟩ | ⟨-, h⟩ | ⟨-, -, h⟩ := afterOperation_cases i s <;> rw [h]
  · simp [calOperation]
  · cases hv : s.calValid <;> simp [normOperation, hv]
  · simp

theorem MapInv.isSome_tmap_iff {s : State} (h : MapInv s) : s.tmap.isSome = true ↔ s.tmapValid = true := by
  unfold MapInv at h
  split at h
  next hv =>
    obtain ⟨l, hl, -⟩ := h
    simp [hl, hv]
  next hv => simp [h, hv]

/-- Settles O42: the map's part of the invariant holds after every operation, from any state. -/
theorem mapOnlyWithTemperature : Obligations.MapOnlyWithTemperature := fun i s =>
  ⟨_, exec_eq_next i s, tmapValid_iff _, (afterOperation_mapInv i s).isSome_tmap_iff⟩

/-! ### What a step can do -/

/-- A step with a move in the host's list is that move. -/
theorem step_of_host_cons {s : State} {m : HostMove} {rest : List HostMove} (h : s.host = m :: rest) :
    step s = hostTurn Config.tdec m { s with host := rest } := by
  rw [step, turn, h]

/-- The effects a step can have: on the model's own fields only (a read, a start while busy, an idle turn), or those of an
operation, of the reset event, of the host's write or of an accepted start. -/
inductive StepEffect (s : State) : State → Prop
  | ownFields (rest : List HostMove) (v : Option PortValue) (n : Nat) :
      StepEffect s { s with host := rest, lastRead := v, freeCount := n }
  | operation (rest : List HostMove) (hbusy : s.busy = true) :
      StepEffect s (afterOperation (decode s.frame) { s with host := rest })
  | reset (rest : List HostMove) (hhost : s.host = .rst :: rest) :
      StepEffect s ({ s with host := rest } : State).resetEvent
  | write (a : Nat) (bytes : List Byte) (rest : List HostMove) (hhost : s.host = .write a bytes :: rest)
      (hidle : s.busy = false) (hfit : a + bytes.length ≤ Config.tdec.frameBytes) :
      StepEffect s { s with host := rest, frame := s.frame.writeBytes a bytes }
  | start (rest : List HostMove) (hhost : s.host = .start :: rest) (hidle : s.busy = false) :
      StepEffect s ({ s with host := rest } : State).acceptStart

/-- Every step that answers a next state has one of these effects. -/
theorem stepEffect_of_step {s t : State} (h : step s = .next t) : StepEffect s t := by
  obtain ⟨rest, -, rfl⟩ | ⟨m, rest, hhost, hm, ht⟩ := step_cases s t h
  · split
    next hbusy => exact .operation rest hbusy
    next => exact .ownFields rest _ _
  · obtain ⟨rfl, rfl⟩ | ⟨a, bytes, rfl, hidle, hfit, rfl⟩ | ⟨rfl, rfl⟩ | ⟨port, v, n, rfl, rfl⟩ :=
      hostTurn_cases Config.tdec m _ t hm ht
    · exact .reset rest hhost
    · exact .write a bytes rest hhost hidle hfit
    · split
      next => exact .ownFields rest _ _
      next hidle => exact .start rest hhost (Bool.eq_false_of_not_eq_true hidle)
    · exact .ownFields rest (some v) n

/-- Settles O14: of the effects of a step only the host's write touches FRAME. -/
theorem onlyTheHostWritesFrame : Obligations.OnlyTheHostWritesFrame := by
  rintro s t h ⟨x, hx⟩
  cases stepEffect_of_step h with
  | write a bytes rest hhost => exact ⟨a, bytes, rest, hhost⟩
  | ownFields | operation | reset | start => simp at hx

/-- Settles O45: operations never clear a flag or touch a finished mask, and every other effect but the reset event
leaves the flags and the mask alone. -/
theorem onlyResetClearsFlags : Obligations.OnlyResetClearsFlags := by
  intro s t h hchange
  cases stepEffect_of_step h with
  | reset rest hhost => exact ⟨rest, hhost⟩
  | operation rest =>
    have hvalid := afterOperation_calValid_of_true (decode s.frame) (s := { s with host := rest })
    have hmask := afterOperation_mask_of_dpDone (decode s.frame) (s := { s with host := rest })
    obtain ⟨hs, ht⟩ | ⟨hs, ht⟩ := hchange
    · simp [hvalid hs] at ht
    · simp [hmask hs] at ht
  | ownFields | write | start => simp at hchange

/-! ### STATUS (R14) -/

theorem status_getLsbD_zero (s : State) : s.status.getLsbD 0 = s.calValid :=
  BitVec.getLsbD_append.trans (by simp)

theorem status_getLsbD_one (s : State) : s.status.getLsbD 1 = s.dpDone :=
  BitVec.getLsbD_append.trans (by simp)

/-- Settles O5: each flag stands at its place in the view, and the read is one move of the host, guarded by `busy`. -/
theorem statusViewOfFlags : Obligations.StatusViewOfFlags := by
  intro s rest hhost
  rw [step_of_host_cons hhost, hostTurn, hostRead]
  exact ⟨status_getLsbD_zero s, status_getLsbD_one s, fun hidle => if_neg (by simp [hidle]), fun hbusy => if_pos hbusy⟩

/-- Settles O6: the invariant makes the two flags equal. -/
theorem statusReadsBothOrNone : Obligations.StatusReadsBothOrNone := by
  intro s hs
  unfold State.status
  rw [hs.flags]
  cases s.calValid
  · exact .inl rfl
  · exact .inr rfl

/-! ### The invariant (R14, R17, R22) -/

theorem memRead_lt (m : Memory) (a n : Nat) : memRead m a n < 256 ^ n := by
  induction n generalizing a with
  | zero => simp [memRead]
  | succ n ih =>
    have hlow := (m.read a).isLt
    have hhigh := ih (a + 1)
    rw [memRead, Nat.pow_succ]
    omega

/-- A raw pixel is a 16-bit integer (R54). -/
theorem rawPixel_bounds (m : Memory) (r c : Nat) :
    -32768 ≤ rawPixel Config.tdec m r c ∧ rawPixel Config.tdec m r c ≤ 32767 := by
  have hword := memRead_lt m (2 * (208 * r + c)) 2
  have hpixel : rawPixel Config.tdec m r c = sext 16 (memRead m (2 * (208 * r + c)) 2) := rfl
  rw [hpixel, sext]
  split <;> omega

theorem workingGrid_bounds {m : Memory} {v : Int} (hv : v ∈ workingGrid Config.tdec m) : -32768 ≤ v ∧ v ≤ 32767 := by
  obtain ⟨i, -, rfl⟩ := List.mem_map.mp hv
  exact rawPixel_bounds m _ _

/-- The reset event establishes the invariant, but for FRAME, which it leaves alone. -/
theorem resetEvent_inv {s : State} (h : FrameInv s) : s.resetEvent.Inv where
  flags := rfl
  cal := rfl
  dead := rfl
  map := rfl
  frame := h
  ports := nofun

/-- Settles O51: the reset state is what the reset event leaves of itself. -/
theorem resetMeetsInvariant : Obligations.ResetMeetsInvariant :=
  resetEvent_inv (s := State.reset) ⟨rfl, rfl⟩

/-- CAL leaves a whole store of pixel values (R76). -/
theorem calOperation_calInv (s : State) : CalInv (calOperation Config.tdec s) := by
  unfold CalInv
  rw [calOperation_calValid, if_pos rfl, calOperation_cal]
  refine ⟨_, rfl, by simp, fun x hx => ?_⟩
  obtain ⟨v, hv, rfl⟩ := List.mem_map.mp hx
  obtain ⟨hlo, hhi⟩ := workingGrid_bounds hv
  exact ⟨v, hlo, hhi, rfl⟩

/-- CAL leaves a whole mask: the one it found, or its own (R78). -/
theorem calOperation_deadInv {s : State} (h : DeadInv s) : DeadInv (calOperation Config.tdec s) := by
  unfold DeadInv at h ⊢
  rw [calOperation_dpDone, if_pos rfl, calOperation_dead]
  split at h
  next hdone => rwa [if_pos hdone]
  next hdone => exact ⟨_, if_neg hdone, by simp⟩

theorem calOperation_inv {s : State} (h : s.Inv) : (calOperation Config.tdec s).Inv where
  flags := by simp
  cal := calOperation_calInv s
  dead := calOperation_deadInv h.dead
  map := afterOperation_mapInv .cal s
  frame := by unfold FrameInv; rw [calOperation_frame]; exact h.frame
  ports := by simp [calOperation]

/-- Every operation keeps the invariant. -/
theorem afterOperation_inv (i : Instr) {s : State} (h : s.Inv) : (afterOperation i s).Inv := by
  by_cases hi : i = .cal
  · rw [hi]
    exact calOperation_inv h
  · have hmap := afterOperation_mapInv i s
    obtain ⟨o, map, heq⟩ := afterOperation_eq_finish hi s
    rw [heq] at hmap ⊢
    exact ⟨h.flags, h.cal, h.dead, hmap, h.frame, nofun⟩

/-- The model's own fields take no part in the invariant. -/
theorem State.Inv.ownFields {s : State} (h : s.Inv) (rest : List HostMove) (v : Option PortValue) (n : Nat) :
    ({ s with host := rest, lastRead := v, freeCount := n } : State).Inv :=
  ⟨h.flags, h.cal, h.dead, h.map, h.frame, h.ports⟩

/-- A write inside the FRAME space keeps the invariant. -/
theorem State.Inv.writeFrame {s : State} (h : s.Inv) {a : Nat} {bytes : List Byte}
    (hfit : a + bytes.length ≤ Config.tdec.frameBytes) :
    ({ s with frame := s.frame.writeBytes a bytes } : State).Inv :=
  have hframe : FrameInv { s with frame := s.frame.writeBytes a bytes } :=
    ⟨Memory.wf_writeBytes _ _ _ h.frame.1, Memory.within_writeBytes _ _ _ _ h.frame.2 hfit⟩
  ⟨h.flags, h.cal, h.dead, h.map, hframe, h.ports⟩

theorem State.Inv.acceptStart {s : State} (h : s.Inv) : s.acceptStart.Inv :=
  ⟨h.flags, h.cal, h.dead, rfl, h.frame, fun _ => ⟨rfl, rfl⟩⟩

/-- Settles O52: each of the effects a step can have keeps the invariant. -/
theorem stepKeepsInvariant : Obligations.StepKeepsInvariant := by
  intro s t hs h
  have hown (rest : List HostMove) : ({ s with host := rest } : State).Inv := hs.ownFields rest _ _
  cases stepEffect_of_step h with
  | ownFields rest v n => exact hs.ownFields rest v n
  | operation rest => exact afterOperation_inv _ (hown rest)
  | reset rest => exact resetEvent_inv (hown rest).frame
  | write a bytes rest _ _ hfit => exact (hown rest).writeFrame hfit
  | start rest => exact (hown rest).acceptStart

/-! ### Runs of frames (R22, R76, R78, R97) -/

/-- What every frame of a run keeps holds after the run. -/
theorem runFrames_preserves (P : State → Prop) {s : State} (ms : List Memory)
    (hkeep : ∀ u, ∀ m ∈ ms, P u → P (afterOperation (decode m) (u.present m))) (hs : P s) :
    ∃ t, runFrames s ms = .next t ∧ P t := by
  induction ms generalizing s with
  | nil => exact ⟨s, rfl, hs⟩
  | cons m rest ih =>
    rw [runFrames_cons]
    exact ih (fun u x hx => hkeep u x (List.mem_cons_of_mem m hx)) (hkeep s m List.mem_cons_self hs)

/-- A frame presented after an operation that is not CAL finds the state as if that operation had not run. -/
theorem afterOperation_present {i : Instr} (hi : i ≠ .cal) (s : State) (m m' : Memory) :
    (afterOperation i (s.present m)).present m' = s.present m' := by
  obtain ⟨o, map, h⟩ := afterOperation_eq_finish hi (s.present m)
  rw [h]
  rfl

/-- Frames that are not CAL frames leave no trace in what a later frame does. -/
theorem runFrames_append_of_ne_cal {before : List Memory} (hbefore : ∀ x ∈ before, decode x ≠ .cal) (s : State)
    (m : Memory) (after : List Memory) : runFrames s (before ++ m :: after) = runFrames s (m :: after) := by
  induction before generalizing s with
  | nil => rfl
  | cons x rest ih =>
    obtain ⟨hx, hrest⟩ := List.forall_mem_cons.mp hbefore
    rw [List.cons_append, runFrames_cons, ih hrest, runFrames_cons, afterOperation_present hx, ← runFrames_cons]

/-- The map does not depend on the mask (R97 (b)). -/
theorem tempMap_ignores_mask (p : Config.Params) (s : State) (b : Bool) (d : Option (List Bool)) :
    tempMap p { s with dpDone := b, dead := d } = tempMap p s := rfl

/-- Settles O39: the first of the two frames leaves no trace, and NORM reads nothing of the mask. -/
theorem normRepeatsAndIgnoresMask : Obligations.NormRepeatsAndIgnoresMask := by
  refine ⟨fun s m hm => ?_, fun s b d => ⟨_, _, exec_norm s, exec_norm _, ?_⟩⟩
  · exact runFrames_append_of_ne_cal (before := [m]) (by simp [hm]) s m []
  · rw [normOperation_eq, normOperation_eq, tempMap_ignores_mask]
    exact ⟨rfl, rfl⟩

/-- Settles O46: CAL stores its grid, and the frames after it leave the store and its flag alone. -/
theorem calibrationIsLatestCalFrame : Obligations.CalibrationIsLatestCalFrame := by
  intro s before after m hm hafter
  obtain ⟨u, hu⟩ := runFrames_total before s
  rw [runFrames_append _ _ _ _ hu, runFrames_cons, hm]
  refine runFrames_preserves
    (fun t => t.calValid = true ∧ t.cal = some ((workingGrid Config.tdec m).map i2f)) after ?_ (by simp)
  intro v x hx hv
  obtain ⟨o, map, h⟩ := afterOperation_eq_finish (hafter x hx) (v.present x)
  simp [h, hv]

/-- Settles O47: the frames before leave no trace, the first CAL frame sets the mask, and no later frame changes it. -/
theorem maskIsFirstCalFrame : Obligations.MaskIsFirstCalFrame := by
  intro s before after m hs hbefore hm
  rw [runFrames_append_of_ne_cal hbefore, runFrames_cons, hm]
  refine runFrames_preserves
    (fun t => t.dpDone = true ∧ t.dead = some (deadMask Config.tdec (workingGrid Config.tdec m))) after ?_ (by simp [hs])
  rintro v x - ⟨hdone, hdead⟩
  obtain ⟨hdone', hdead'⟩ := afterOperation_mask_of_dpDone (decode x) (s := v.present x) hdone
  exact ⟨hdone', hdead'.trans hdead⟩

end Sys2Proof.Machine
end

section
/-! PROOFS. FRAME, the ports of the host, and runs of the machine (spec/20_memory.md). Two ideas carry this part. An
operation's report, which is the tuple, the outcome and the map, is a function of the tuple before it and of the words of
the working grid (`afterOperation_report_congr`); and the three moves of a frame line are one such operation
(`core_run_frameMoves`), so that a program of frame lines and the run of its images report the same. -/

namespace Sys2Proof.Machine

/-! ### The bytes of a map (R35) -/

@[simp] theorem leBytes_length (n v : Nat) : (leBytes n v).length = n := by
  induction n generalizing v with
  | zero => rfl
  | succ n ih => simp [leBytes, ih]

theorem leBytes_getElem? (n v k : Nat) (hk : k < n) : (leBytes n v)[k]? = some (BitVec.ofNat 8 (v / 256 ^ k)) := by
  induction n generalizing v k with
  | zero => omega
  | succ n ih =>
    cases k with
    | zero => simp [leBytes]
    | succ k =>
      rw [leBytes, List.getElem?_cons_succ, ih _ k (by omega), Nat.div_div_eq_div_mul, Nat.pow_succ']

/-- A byte of a binary64 pattern by its place. -/
theorem ofNat_div_eq_extractLsb' (x : F64) (k : Nat) : BitVec.ofNat 8 (x.toNat / 256 ^ k) = x.extractLsb' (8 * k) 8 := by
  rw [BitVec.extractLsb', Nat.shiftRight_eq_div_pow, Nat.pow_mul]

@[simp] theorem serialise_length (l : List F64) : (serialise l).length = 8 * l.length := by
  simp [serialise, List.length_flatMap, Nat.mul_comm]

theorem serialise_cons (x : F64) (l : List F64) : serialise (x :: l) = leBytes 8 x.toNat ++ serialise l := rfl

/-- Settles O10, by induction on the list: the bytes of its first element come first, and the others move up by 8. -/
theorem mapSerialisesLittleEndian : Obligations.MapSerialisesLittleEndian := by
  refine fun l => ⟨serialise_length l, fun i k hk => ?_⟩
  induction l generalizing i with
  | nil => simp [serialise]
  | cons x l ih =>
    rw [serialise_cons]
    cases i with
    | zero =>
      rw [List.getElem?_append_left (by simpa using hk), Nat.mul_zero, Nat.zero_add, leBytes_getElem? 8 _ k hk,
        ofNat_div_eq_extractLsb']
      rfl
    | succ i =>
      rw [List.getElem?_append_right (by rw [leBytes_length]; omega), leBytes_length,
        show 8 * (i + 1) + k - 8 = 8 * i + k by omega, ih, List.getElem?_cons_succ]

/-! ### A word of FRAME (R34, R54) -/

/-- A two-byte word read from FRAME has the byte at the higher address on top. -/
theorem memRead_two (m : Memory) (a : Nat) : memRead m a 2 = (m.read (a + 1) ++ m.read a).toNat := by
  rw [BitVec.toNat_append, ← Nat.shiftLeft_add_eq_or_of_lt (m.read a).isLt, Nat.shiftLeft_eq]
  simp only [memRead]
  omega

/-- `sext` of R7 is the two's complement value. -/
theorem sext_toNat {w : Nat} (x : BitVec (w + 1)) : sext (w + 1) x.toNat = x.toInt := by
  rw [sext, BitVec.toInt_eq_toNat_cond, Nat.add_sub_cancel, Nat.pow_succ]
  simp only [show x.toNat < 2 ^ w ↔ 2 * x.toNat < 2 ^ w * 2 by omega]
  split <;> simp [pow_succ]

/-- A raw pixel is the signed word at its row-major place. -/
theorem rawPixel_eq_toInt (m : Memory) (r c : Nat) :
    rawPixel Config.tdec m r c = (m.read (2 * (208 * r + c) + 1) ++ m.read (2 * (208 * r + c))).toInt := by
  rw [← sext_toNat, ← memRead_two]
  rfl

/-- Settles O19: the word is two bytes of FRAME, and 16 bits bound it. -/
theorem rawGridElement : Obligations.RawGridElement :=
  fun m r c _ _ => ⟨rawPixel_eq_toInt m r c, rawPixel_bounds m r c⟩

/-! ### The host's write (R31, R39, R42) -/

/-- Between operations a write inside the FRAME space lands. -/
theorem step_write {s : State} {a : Nat} {bytes : List Byte} {rest : List HostMove} (hidle : s.busy = false)
    (hhost : s.host = .write a bytes :: rest) (hfit : a + bytes.length ≤ 64896) :
    step s = .next { s with host := rest, frame := s.frame.writeBytes a bytes } := by
  rw [step_of_host_cons hhost]
  exact (if_neg (by simp [hidle])).trans (if_neg (Nat.not_lt.mpr hfit))

/-- Settles O13: the write is one move of the host, guarded by `busy` and by the last address. -/
theorem hostWritesOfFrame : Obligations.HostWritesOfFrame := by
  intro s a bytes rest hhost
  split_ifs with hbusy hpast
  · rw [step_of_host_cons hhost]
    exact if_pos hbusy
  · rw [step_of_host_cons hhost]
    exact (if_neg hbusy).trans (if_pos hpast)
  · exact ⟨_, step_write (Bool.eq_false_of_not_eq_true hbusy) hhost (Nat.not_lt.mp hpast), rfl,
      Memory.read_writeBytes s.frame a bytes⟩

/-- Two writes, the second right above the first, read as one write of both. -/
theorem Memory.read_writeBytes_adjacent {m n : Memory} {a b : Nat} {xs : List Byte} (hb : b = a + xs.length)
    (hn : ∀ x, n.read x = (m.writeBytes a xs).read x) (ys : List Byte) (x : Nat) :
    (n.writeBytes b ys).read x = (m.writeBytes a (xs ++ ys)).read x := by
  subst hb
  rw [read_writeBytes, hn, read_writeBytes, read_writeBytes, List.length_append]
  by_cases hxs : x < a + xs.length
  · rw [if_neg (by omega)]
    by_cases ha : a ≤ x
    · rw [if_pos ⟨ha, hxs⟩, if_pos (by omega), List.getD_append _ _ _ _ (by omega)]
    · rw [if_neg (by omega), if_neg (by omega)]
  · rw [if_neg (c := a ≤ x ∧ x < a + xs.length) (by omega)]
    by_cases hys : x < a + xs.length + ys.length
    · rw [if_pos (by omega), if_pos (by omega), List.getD_append_right _ _ _ _ (by omega), Nat.sub_add_eq]
    · rw [if_neg (by omega), if_neg (by omega)]

/-- Settles O12: each bulk read lands right above the one before, so that together they read as one write of all. -/
theorem bulkReadsFillFrame : Obligations.BulkReadsFillFrame := by
  intro s c0 c1 c2 c3 h0 h1 h2 h3 hidle hhost
  have hrun : core.run 4 s = .next { s with
      host := []
      frame := (((s.frame.writeBytes 0 c0).writeBytes 16224 c1).writeBytes 32448 c2).writeBytes 48672 c3 } := by
    refine Eq.trans (core_run_succ 3 (step_write hidle hhost (by rw [h0]; decide))) ?_
    refine Eq.trans (core_run_succ 2 (step_write hidle rfl (by rw [h1]; decide))) ?_
    refine Eq.trans (core_run_succ 1 (step_write hidle rfl (by rw [h2]; decide))) ?_
    exact core_run_succ 0 (step_write hidle rfl (by rw [h3]))
  refine ⟨_, hrun, rfl, rfl, fun a ha => ?_⟩
  have h01 := Memory.read_writeBytes_adjacent (m := s.frame) (a := 0) (b := 16224) (by rw [h0]) (fun _ => rfl) c1
  have h02 := Memory.read_writeBytes_adjacent (b := 32448) (by simp [h0, h1]) h01 c2
  have h03 := Memory.read_writeBytes_adjacent (b := 48672) (by simp [h0, h1, h2]) h02 c3
  rw [h03]
  exact read_writeBytes_whole s.frame _ a (by simp [h0, h1, h2, h3, ha])

/-! ### Reading the ports (R14, R32, R33, R43) -/

/-- Settles O7: the guards of the port, one after another. -/
theorem deadReadPort : Obligations.DeadReadPort := by
  intro s i rest hhost
  rw [step_of_host_cons hhost]
  split_ifs with hbusy hdone hindex
  · exact if_pos hbusy
  · exact (if_neg hbusy).trans (if_pos hdone)
  · exact (if_neg hbusy).trans ((if_neg hdone).trans (if_pos hindex))
  · intro l b hl hb
    have hbit : s.deadAt i.toNat = b := by simp [State.deadAt, hl, hb]
    subst hbit
    exact (if_neg hbusy).trans ((if_neg hdone).trans (if_neg hindex))

/-- A read of the TMAP buffer where it holds an element. -/
theorem readTmap_of_some {i : BitVec 15} {s : State} {x : F64} (hi : i.toNat < 31930)
    (hx : s.tmap.bind (fun l => l[i.toNat]?) = some x) : readTmap Config.tdec i s = deliver (.word x) s := by
  refine (if_neg (Nat.not_le.mpr hi)).trans ?_
  rw [hx]

/-- A read of the TMAP buffer where it holds none. -/
theorem readTmap_of_none {i : BitVec 15} {s : State} (hi : i.toNat < 31930)
    (hx : s.tmap.bind (fun l => l[i.toNat]?) = none) :
    readTmap Config.tdec i s = deliverAny (.word (Config.anyValue s.freeCount)) s := by
  refine (if_neg (Nat.not_le.mpr hi)).trans ?_
  rw [hx]

/-- Settles O8: the guards of the read, and the two forms of the buffer's element. -/
theorem tmapBufferRead : Obligations.TmapBufferRead := by
  intro s i rest hhost
  rw [step_of_host_cons hhost]
  split_ifs with hbusy hindex
  · exact if_pos hbusy
  · exact (if_neg hbusy).trans (if_pos hindex)
  · have hi := Nat.not_le.mp hindex
    refine ⟨fun l x hl hx => ?_, fun hnone => ⟨Config.anyValue s.freeCount, ?_⟩⟩
    · exact (if_neg hbusy).trans (readTmap_of_some hi (by simp [hl, hx]))
    · exact (if_neg hbusy).trans (readTmap_of_none hi (Option.bind_eq_none_iff.mpr hnone))

theorem tmapValid_eq_decide (s : State) : s.tmapValid = decide (s.outcome = some .temperature) :=
  Bool.eq_iff_iff.mpr ((tmapValid_iff s).trans decide_eq_true_iff.symm)

theorem readOutcome_of_some {s : State} {o : FrameOutcome} (ho : s.outcome = some o) :
    readOutcome s = deliver (.code o.code) s := by
  rw [readOutcome, ho]

theorem readOutcome_of_none {s : State} (ho : s.outcome = none) :
    readOutcome s = deliverAny (.code ((Config.anyValue s.freeCount).setWidth 2)) s := by
  rw [readOutcome, ho]

/-- Settles O9: `busy` and `done` are read without a guard, the other two ports behind `busy`. -/
theorem outputPortsRead : Obligations.OutputPortsRead := by
  refine fun s rest => ⟨fun hhost => ?_, fun hhost => ?_, fun hhost => ?_, fun hhost => ?_⟩ <;>
    rw [step_of_host_cons hhost]
  · rfl
  · rfl
  · rw [← tmapValid_eq_decide]
    split_ifs with hbusy
    · exact if_pos hbusy
    · exact if_neg hbusy
  · split_ifs with hbusy
    · exact if_pos hbusy
    · exact ⟨fun o ho => (if_neg hbusy).trans (readOutcome_of_some ho),
        fun ho => ⟨_, (if_neg hbusy).trans (readOutcome_of_none ho)⟩⟩

/-! ### `start` and TDEC's turn (R38, R43, R69, R143, R148) -/

/-- An accepted `start`. -/
theorem step_start {s : State} {rest : List HostMove} (hidle : s.busy = false) (hhost : s.host = .start :: rest) :
    step s = .next ({ s with host := rest } : State).acceptStart := by
  rw [step_of_host_cons hhost]
  exact congrArg Host.Outcome.next (if_neg (by simp [hidle]))

/-- Settles O48: the one guard of `start` is `busy`. -/
theorem startOnlyWhenIdle : Obligations.StartOnlyWhenIdle := by
  refine fun s rest hhost => ⟨fun hidle => ⟨_, step_start hidle hhost, rfl, rfl, rfl, rfl, rfl⟩, fun hbusy => ?_⟩
  rw [step_of_host_cons hhost]
  exact congrArg Host.Outcome.next (if_pos hbusy)

/-- A step without a move of the host is TDEC's turn. -/
theorem step_of_host_nil {s : State} (hhost : s.host = []) : step s = tdecTurn s := by
  rw [step, turn, hhost]

/-- Settles O49: with no move or an `idle` one the step is TDEC's turn, and that is `exec` exactly when `busy`. -/
theorem stepRunsDecodedOperation : Obligations.StepRunsDecodedOperation := by
  refine fun s => ⟨fun hhost hbusy => ?_, fun hhost hidle => ?_, fun rest hhost hbusy => ?_, fun rest hhost hidle => ?_⟩
  · exact (step_of_host_nil hhost).trans (if_pos hbusy)
  · exact (step_of_host_nil hhost).trans (if_neg (by simp [hidle]))
  · exact (step_of_host_cons hhost).trans (if_pos hbusy)
  · exact (step_of_host_cons hhost).trans (if_neg (by simp [hidle]))

/-- An `idle` move lets a started operation run. -/
theorem step_idle {s : State} {rest : List HostMove} (hbusy : s.busy = true) (hhost : s.host = .idle :: rest) :
    step s = .next (afterOperation (decode s.frame) { s with host := rest }) := by
  rw [step_of_host_cons hhost, ← exec_eq_next]
  exact if_pos hbusy

/-- Every operation ends: `busy` is 0, `done` is 1 and an outcome stands on the port (R43, R115). -/
theorem afterOperation_ends (i : Instr) (s : State) : (afterOperation i s).busy = false ∧
    (afterOperation i s).done = true ∧ (afterOperation i s).outcome.isSome = true := by
  by_cases hi : i = .cal
  · simp [hi, calOperation]
  · obtain ⟨o, map, h⟩ := afterOperation_eq_finish hi s
    simp [h]

/-- An operation takes nothing from the host's list. -/
@[simp] theorem afterOperation_host (i : Instr) (s : State) : (afterOperation i s).host = s.host := by
  by_cases hi : i = .cal
  · simp [hi, calOperation]
  · obtain ⟨o, map, h⟩ := afterOperation_eq_finish hi s
    simp [h]

/-- Settles O50: TDEC's turn runs the whole operation, and every operation ends. -/
theorem startedOperationEnds : Obligations.StartedOperationEnds := by
  intro s hbusy hhost
  refine ⟨afterOperation (decode s.frame) s, ?_, afterOperation_ends _ s⟩
  rw [step_of_host_nil hhost, tdecTurn_eq, if_pos hbusy]

/-! ### What an operation's report depends on (R37, R38, R55) -/

/-- What an operation leaves for the host to see and for the next operation to start from: the tuple of R22, the outcome
and the map. -/
def State.report (s : State) :
    (Bool × Bool × Option (List F64) × Option (List Bool)) × Option FrameOutcome × Option (List F64) :=
  (s.tuple, s.outcome, s.tmap)

theorem report_eq_iff {s s' : State} :
    s.report = s'.report ↔ s.tuple = s'.tuple ∧ s.outcome = s'.outcome ∧ s.tmap = s'.tmap := by
  simp [State.report]

theorem tuple_eq_iff {s s' : State} : s.tuple = s'.tuple ↔
    s.calValid = s'.calValid ∧ s.dpDone = s'.dpDone ∧ s.cal = s'.cal ∧ s.dead = s'.dead := by
  simp [State.tuple]

/-- The map is made of the working grid and of CAL. -/
theorem tempMap_congr (p : Config.Params) {s s' : State} (hcal : s.cal = s'.cal)
    (hgrid : workingGrid p s.frame = workingGrid p s'.frame) : tempMap p s = tempMap p s' := by
  rw [tempMap, tempMap, State.calElems, State.calElems, hcal, hgrid]

theorem afterOperation_unrec {i : Instr} (hc : i ≠ .cal) (hn : i ≠ .norm) (s : State) :
    afterOperation i s = s.raise .unrecognized := by
  simpa [hc, hn] using afterOperation_cases i s

/-- An operation's report is a function of the tuple it found and of the working grid. -/
theorem afterOperation_report_congr (i : Instr) {s s' : State} (htuple : s.tuple = s'.tuple)
    (hgrid : workingGrid Config.tdec s.frame = workingGrid Config.tdec s'.frame) :
    (afterOperation i s).report = (afterOperation i s').report := by
  obtain ⟨hvalid, hdone, hcal, hdead⟩ := tuple_eq_iff.mp htuple
  rw [report_eq_iff, tuple_eq_iff]
  by_cases hc : i = .cal
  · simp [hc, calOperation_eq, hdone, hdead, hgrid]
  · by_cases hn : i = .norm
    · simp [hn, afterOperation, normOperation_eq, hvalid, hdone, hcal, hdead, tempMap_congr Config.tdec hcal hgrid]
    · simp [afterOperation_unrec hc hn, hvalid, hdone, hcal, hdead]

/-- The words of the working grid make the grid. -/
theorem SameNeeded.workingGrid_eq {m m' : Memory} (h : SameNeeded m m') :
    workingGrid Config.tdec m = workingGrid Config.tdec m' := by
  refine List.map_congr_left fun i hi => ?_
  have hi : i < 155 * 206 := List.mem_range.mp hi
  obtain ⟨hlow, hhigh⟩ := h (i / 206) (i % 206) (by omega) (by omega)
  rw [rawPixel_eq_toInt, rawPixel_eq_toInt]
  exact congrArg BitVec.toInt (congrArg₂ HAppend.hAppend hhigh hlow)

/-- The status byte is the low byte of a word of the working grid (R56), so they choose the operation. -/
theorem SameNeeded.decode_eq {m m' : Memory} (h : SameNeeded m m') : decode m = decode m' :=
  congrArg decodeStatus (h 0 10 (by decide) (by decide)).1

/-- Contents that agree on the addresses of the FRAME space agree on all that is needed. -/
theorem sameNeeded_of_read_eq {m m' : Memory} (h : ∀ a, a < 64896 → m.read a = m'.read a) : SameNeeded m m' :=
  fun _ _ _ _ => ⟨h _ (by omega), h _ (by omega)⟩

/-- The operation of a presented frame reports the same from two states with the same tuple. -/
theorem present_report_congr {s s' : State} (htuple : s.tuple = s'.tuple) (m : Memory) :
    (afterOperation (decode m) (s.present m)).report = (afterOperation (decode m) (s'.present m)).report :=
  afterOperation_report_congr _ (s := s.present m) (s' := s'.present m) htuple rfl

/-- The same frames, from two states with the same report, end with the same report. -/
theorem runFrames_report_congr (ms : List Memory) {s s' : State} (h : s.report = s'.report) :
    ∃ t t', runFrames s ms = .next t ∧ runFrames s' ms = .next t' ∧ t.report = t'.report := by
  induction ms generalizing s s' with
  | nil => exact ⟨s, s', rfl, rfl, h⟩
  | cons m ms ih =>
    rw [runFrames_cons, runFrames_cons]
    exact ih (present_report_congr (report_eq_iff.mp h).1 m)

/-- Settles O11: after the first frame the two machines report the same, and they go on doing so. -/
theorem runsDependOnTupleAndFramesOnly : Obligations.RunsDependOnTupleAndFramesOnly := by
  intro s s' m ms htuple
  rw [runFrames_cons, runFrames_cons]
  obtain ⟨t, t', ht, ht', h⟩ := runFrames_report_congr ms (present_report_congr htuple m)
  exact ⟨t, t', ht, ht', report_eq_iff.mp h⟩

/-! ### A program of frame lines (R40, R61) -/

/-- The three moves of a frame line are one operation, started on FRAME filled with the image. -/
theorem core_run_frameMoves {s : State} {image : List Byte} {rest : List HostMove} (hidle : s.busy = false)
    (hhost : s.host = frameMoves image ++ rest) (hfit : image.length ≤ 64896) (k : Nat) :
    core.run (k + 3) s =
      core.run k (afterOperation (decode (s.frame.writeBytes 0 image))
        ({ s with host := rest, frame := s.frame.writeBytes 0 image } : State).acceptStart) := by
  refine Eq.trans (core_run_succ (k + 2) (step_write hidle hhost (by omega))) ?_
  refine Eq.trans (core_run_succ (k + 1) (step_start hidle rfl)) ?_
  exact core_run_succ k (step_idle rfl rfl)

/-- FRAME filled whole holds what the cells of the image hold. -/
theorem sameNeeded_writeBytes_cells (m : Memory) {image : List Byte} (hlen : image.length = 64896) :
    SameNeeded (m.writeBytes 0 image) (Memory.cells 0 image) := by
  refine sameNeeded_of_read_eq fun a ha => ?_
  rw [Memory.read_writeBytes, lookup_cells, if_pos (by omega), if_pos (Nat.zero_le a)]

/-- The moves of whole images and the run over the images, from two states with the same report, end with the same
report. -/
theorem core_run_flatMap_frameMoves {images : List (List Byte)} (hlen : ∀ image ∈ images, image.length = 64896)
    {s v : State} (hidle : s.busy = false) (hhost : s.host = images.flatMap frameMoves) (h : s.report = v.report) :
    ∃ t u, core.run (3 * images.length) s = .next t ∧ runFrames v (images.map (Memory.cells 0)) = .next u ∧
      t.host = [] ∧ t.busy = false ∧ t.report = u.report := by
  induction images generalizing s v with
  | nil => exact ⟨s, v, rfl, rfl, hhost, hidle, h⟩
  | cons image images ih =>
    obtain ⟨himage, himages⟩ := List.forall_mem_cons.mp hlen
    have hneeded := sameNeeded_writeBytes_cells s.frame himage
    rw [List.length_cons, Nat.mul_succ, core_run_frameMoves hidle hhost himage.le, List.map_cons, runFrames_cons,
      hneeded.decode_eq]
    refine ih himages (afterOperation_ends _ _).1 (afterOperation_host _ _) (afterOperation_report_congr _ ?_ ?_)
    · exact (report_eq_iff.mp h).1
    · exact hneeded.workingGrid_eq

@[simp] theorem frameImage_length (p : Config.Params) (l : FrameLine) : (frameImage p l).length = p.frameBytes := by
  simp [frameImage]

/-- A program of frame lines is the moves of its images. -/
theorem programMoves_map_frame (p : Config.Params) (prog : List FrameLine) :
    programMoves p (prog.map ProgramLine.frame) = (prog.map (frameImage p)).flatMap frameMoves := by
  rw [programMoves, List.flatMap_map, List.flatMap_map]
  rfl

/-- Settles O55: the machine starts with the report of the run it is compared with, its own. -/
theorem programRunsTopToBottom : Obligations.ProgramRunsTopToBottom := by
  intro s prog hidle hhost
  have hlen : ∀ image ∈ prog.map (frameImage Config.tdec), image.length = 64896 :=
    List.forall_mem_map.mpr fun l _ => frameImage_length Config.tdec l
  obtain ⟨t, u, ht, hu, hnil, hbusy, h⟩ :=
    core_run_flatMap_frameMoves hlen hidle (hhost.trans (programMoves_map_frame _ prog)) rfl
  rw [List.length_map] at ht
  rw [List.map_map, Function.comp_def] at hu
  exact ⟨t, u, ht, hu, hnil, hbusy, report_eq_iff.mp h⟩

end Sys2Proof.Machine
end

section
/-! PROOFS. Encoding, operand assembly and the frame notation (spec/30_encoding.md). Two ideas carry this part. The status
bytes and the operations are in bijection (`decodeStatus_eq_iff`), so that what the table says of an operation's own byte it
says of every byte. And a list that is built up in passes (the bytes of FRAME, the words of a frame line) is known by one
lemma per pass. -/

namespace Sys2Proof.Machine

/-! ### The status byte and the operations (R51, R52, R57) -/

@[simp] theorem decodeStatus_encode (i : Instr) : decodeStatus (encode i) = i := by
  cases i with
  | cal => rfl
  | norm => rfl
  | unrec00 => rfl
  | unrec02 => rfl
  | unrec04 f => revert f; decide
  | unrec08 f => revert f; decide
  | unrec10 f => revert f; decide
  | unrec20 f => revert f; decide
  | unrec40 f => revert f; decide
  | unrec80 f => revert f; decide

@[simp] theorem encode_decodeStatus (b : Byte) : encode (decodeStatus b) = b := by
  revert b; decide

/-- Each status byte is the code of exactly one operation (R57). -/
theorem decodeStatus_eq_iff {b : Byte} {i : Instr} : decodeStatus b = i ↔ b = encode i :=
  ⟨fun h => h ▸ (encode_decodeStatus b).symm, fun h => h ▸ decodeStatus_encode i⟩

theorem decode_eq_iff {m : Memory} {i : Instr} : decode m = i ↔ m.read 20 = encode i :=
  decodeStatus_eq_iff

/-- Settles O15: byte 20 is the operation's code, and the write of that one byte is all the encoder does. -/
theorem decodeOfEncodedFrame : Obligations.DecodeOfEncodedFrame := by
  intro i m
  have hread : ∀ a, (encodeFrame i m).read a = if a = 20 then encode i else m.read a := m.read_write 20 (encode i)
  exact ⟨decode_eq_iff.mpr ((hread 20).trans (if_pos rfl)), fun a ha => (hread a).trans (if_neg ha),
    m.wf_write 20 (encode i)⟩

theorem mnemonicOf_of_ne {i : Instr} (hcal : i ≠ .cal) (hnorm : i ≠ .norm) : mnemonicOf i = "UNREC" := by
  cases i with
  | cal => exact absurd rfl hcal
  | norm => exact absurd rfl hnorm
  | _ => rfl

theorem mnemonicOf_decodeStatus (b : Byte) :
    mnemonicOf (decodeStatus b) = if b = 1 then "CAL" else if b = 3 then "NORM" else "UNREC" := by
  split_ifs with hcal hnorm
  · rw [hcal]; rfl
  · rw [hnorm]; rfl
  · exact mnemonicOf_of_ne (mt decodeStatus_eq_iff.mp hcal) (mt decodeStatus_eq_iff.mp hnorm)

/-- The table's own statement of each row, for every operation. -/
theorem rowMatch (i : Instr) : Laws.RowMatch.Statement i := by
  cases i with
  | cal => exact Laws.RowMatch.cal
  | norm => exact Laws.RowMatch.norm
  | unrec00 => exact Laws.RowMatch.unrec00
  | unrec02 => exact Laws.RowMatch.unrec02
  | unrec04 f => exact Laws.RowMatch.unrec04 f
  | unrec08 f => exact Laws.RowMatch.unrec08 f
  | unrec10 f => exact Laws.RowMatch.unrec10 f
  | unrec20 f => exact Laws.RowMatch.unrec20 f
  | unrec40 f => exact Laws.RowMatch.unrec40 f
  | unrec80 f => exact Laws.RowMatch.unrec80 f

/-- Settles O16: byte 20 is the code of the decoded operation, and the table's rows are known on codes. -/
theorem statusSelectsOperation : Obligations.StatusSelectsOperation := by
  intro m
  have hcode : encode (decode m) = m.read 20 := encode_decodeStatus _
  obtain ⟨hrows, hname⟩ := rowMatch (decode m)
  rw [hcode] at hrows
  have hmem : rowIndex (decode m) ∈ opcodeRows.findIdxs (fun r => r.selects (m.read 20)) := by simp [hrows]
  obtain ⟨hlt, hselects⟩ := List.mem_findIdxs_iff_exists_getElem_pos.mp hmem
  refine ⟨mnemonicOf_decodeStatus _, hcode, ?_, _, List.getElem?_eq_getElem hlt, hselects, ?_⟩
  · rw [← List.countP_eq_length_filter, ← List.length_findIdxs, hrows, List.length_singleton]
  · simpa [hlt] using hname

/-- Settles O17: the one guard is the length. -/
theorem onlyWholeFramesDecode : Obligations.OnlyWholeFramesDecode :=
  fun _ => ⟨fun h => if_pos h, fun h => if_neg h⟩

/-- Settles O18: ten closed words. -/
theorem sampleWordsDecode : Obligations.SampleWordsDecode := by
  unfold Obligations.SampleWordsDecode
  decide

/-! ### The status pixel and the crop (R55, R56) -/

/-- The word at (0, 10) is made of the status byte, below, and of byte 21. -/
theorem rawPixel_status (m : Memory) :
    rawPixel Config.tdec m 0 10 = (m.read 21 ++ m.read 20).toInt :=
  rawPixel_eq_toInt m 0 10

theorem rawPixel_status_of_decode {m : Memory} {i : Instr} (h : decode m = i) :
    rawPixel Config.tdec m 0 10 = 256 * (m.read 21).toInt + (encode i).toNat := by
  rw [rawPixel_status, decode_eq_iff.mp h]
  exact BitVec.toInt_append

/-- Settles O21: a signed word is 256 times its signed high byte and its unsigned low byte. -/
theorem statusPixelHoldsOpcode : Obligations.StatusPixelHoldsOpcode := by
  have hcal : (encode .cal).toNat = 1 := rfl
  have hnorm : (encode .norm).toNat = 3 := rfl
  refine ⟨fun m => ⟨rawPixel_status m, fun h => ?_, fun h => ?_⟩, fun mc mn hc hn => ?_⟩
  · rw [rawPixel_status_of_decode h]
    omega
  · rw [rawPixel_status_of_decode h]
    omega
  · rw [rawPixel_status_of_decode hc, rawPixel_status_of_decode hn]
    omega

/-- Settles O20: the grid is read at the raw coordinates, and an operation's report is made of the tuple and the grid. -/
theorem croppedCellsTakeNoPart : Obligations.CroppedCellsTakeNoPart := by
  refine ⟨fun m => ⟨workingGrid_length _ m, fun r c hr hc => workingGrid_at Config.tdec m r c hr hc⟩,
    fun s m m' h => ?_⟩
  have hgrid := h.workingGrid_eq
  have hdecode := h.decode_eq
  have hreport := afterOperation_report_congr (decode m) (s := { s with frame := m })
    (s' := { s with frame := m' }) rfl hgrid
  obtain ⟨htuple, houtcome, htmap⟩ := report_eq_iff.mp hreport
  obtain ⟨-, -, hcal, hdead⟩ := tuple_eq_iff.mp htuple
  refine ⟨congrArg _ hgrid, hdecode, _, _, exec_eq_next _ _, ?_, hcal, hdead, htmap, houtcome⟩
  rw [← hdecode, exec_eq_next]

/-! ### The one-pass grid (R54, R55) -/

theorem Memory.read_cons (a : Nat) (b : Byte) (m : Memory) (x : Nat) :
    Memory.read ((a, b) :: m) x = if x = a then b else m.read x := by
  by_cases h : x = a
  · simp [Memory.read, h]
  · simp [Memory.read, List.lookup_cons, h, beq_false_of_ne h]

theorem Memory.wfFrom_cons {lo a : Nat} {b : Byte} {m : Memory} :
    Memory.wfFrom lo ((a, b) :: m) = true ↔ lo ≤ a ∧ b ≠ unlistedByte ∧ m.wfFrom (a + 1) = true := by
  simp [Memory.wfFrom, and_assoc]

theorem Memory.read_of_lt {m : Memory} {lo x : Nat} (hwf : m.wfFrom lo = true) (hx : x < lo) :
    m.read x = unlistedByte := by
  induction m generalizing lo with
  | nil => rfl
  | cons c m ih =>
    obtain ⟨ha, -, hm⟩ := Memory.wfFrom_cons.mp hwf
    rw [Memory.read_cons, if_neg (by omega), ih hm (by omega)]

/-- The first pass: on cells in canonical form it reads the addresses one after another. -/
theorem denseBytes_eq_map_read (n : Nat) {lo : Nat} {m : Memory} (hwf : m.wfFrom lo = true) :
    denseBytes n lo m = (List.range' lo n).map m.read := by
  induction n generalizing lo m with
  | zero => rfl
  | succ n ih =>
    rw [List.range'_succ, List.map_cons]
    cases m with
    | nil => rw [denseBytes, ih rfl, Memory.read_nil]
    | cons c m =>
      obtain ⟨a, b⟩ := c
      obtain ⟨ha, hb, hm⟩ := Memory.wfFrom_cons.mp hwf
      by_cases hlo : a = lo
      · subst hlo
        have htail : ∀ x ∈ List.range' (a + 1) n, Memory.read m x = Memory.read ((a, b) :: m) x := fun x hx => by
          rw [Memory.read_cons, if_neg (by have := List.mem_range'_1.mp hx; omega)]
        rw [denseBytes, if_pos rfl, ih hm, List.map_congr_left htail, Memory.read_cons, if_pos rfl]
      · have hrest : Memory.wfFrom (lo + 1) ((a, b) :: m) = true :=
          Memory.wfFrom_cons.mpr ⟨by omega, hb, hm⟩
        rw [denseBytes, if_neg hlo, ih hrest, Memory.read_of_lt hrest (Nat.lt_succ_self lo)]

/-- The second pass: the bytes from an even address on, two by two, are the words. -/
theorem pairPixels_map_read (m : Memory) (k n : Nat) :
    pairPixels Config.tdec ((List.range' (2 * k) (2 * n)).map m.read) =
      (List.range' k n).map (wordPixel Config.tdec m) := by
  induction n generalizing k with
  | zero => rfl
  | succ n ih =>
    rw [Nat.mul_succ, List.range'_succ, List.range'_succ, List.range'_succ]
    exact congrArg _ (ih (k + 1))

/-- The third pass: the crop cuts every raw row it keeps, and keeps the coordinates of what is left. -/
theorem cropList_map_wordPixel (m : Memory) (r : Nat) {rows n : Nat} (hn : 208 * rows ≤ n) :
    cropList 206 208 rows ((List.range' (208 * r) n).map (wordPixel Config.tdec m)) =
      (List.range' (206 * r) (206 * rows)).map fun i => rawPixel Config.tdec m (i / 206) (i % 206) := by
  induction rows generalizing r n with
  | zero => rfl
  | succ rows ih =>
    have hrow : (List.range' (208 * r) 206).map (wordPixel Config.tdec m) =
        (List.range' (206 * r) 206).map fun i => rawPixel Config.tdec m (i / 206) (i % 206) := by
      rw [List.range'_eq_map_range, List.range'_eq_map_range, List.map_map, List.map_map]
      refine List.map_congr_left fun c hc => ?_
      have hc : c < 206 := List.mem_range.mp hc
      simp only [Function.comp_apply, show (206 * r + c) / 206 = r by omega, show (206 * r + c) % 206 = c by omega]
      rfl
    rw [cropList, ← List.map_take, ← List.map_drop, List.take_range'_of_length_ge (by omega), List.drop_range', hrow,
      show 208 * r + 208 * 1 = 208 * (r + 1) by omega, ih (r + 1) (by omega),
      show 206 * (rows + 1) = 206 + 206 * rows by omega, ← List.range'_append_1, List.map_append, Nat.mul_succ]

/-- The three passes together, on `n` words that hold `rows` whole rows. -/
theorem cropList_denseBytes {m : Memory} (hwf : m.wf = true) {rows n : Nat} (hn : 208 * rows ≤ n) :
    cropList 206 208 rows (pairPixels Config.tdec (denseBytes (2 * n) 0 m)) =
      (List.range (206 * rows)).map fun i => rawPixel Config.tdec m (i / 206) (i % 206) := by
  have hwords := pairPixels_map_read m 0 n
  have hcrop := cropList_map_wordPixel m 0 hn
  rw [Nat.mul_zero] at hwords hcrop
  rw [denseBytes_eq_map_read _ hwf, hwords, hcrop, List.range_eq_range']

/-- Settles O22: the passes give, one after another, the bytes, the words, and the words of the working grid. -/
theorem denseGridIsWorkingGrid : Obligations.DenseGridIsWorkingGrid :=
  fun _ hwf => cropList_denseBytes (n := 32448) hwf (by decide)

/-! ### The frame notation (R59 to R61) -/

/-- Setting the `px` one after another, left to right, seen at one word. -/
theorem getElem?_foldl_set {px : List Px} (hpx : ∀ x ∈ px, x.col < 208) (ws : List RawWord) (k : Nat) :
    (px.foldl (fun ws x => ws.set (208 * x.row + x.col) x.value) ws)[k]? =
      ws[k]?.map fun w =>
        px.foldl (fun w x => if x.row = k / 208 ∧ x.col = k % 208 then x.value else w) w := by
  induction px generalizing ws with
  | nil => simp
  | cons x px ih =>
    obtain ⟨hx, hpx⟩ := List.forall_mem_cons.mp hpx
    have hplace : 208 * x.row + x.col = k ↔ x.row = k / 208 ∧ x.col = k % 208 := by omega
    rw [List.foldl_cons, ih hpx, List.getElem?_set']
    by_cases h : 208 * x.row + x.col = k
    · simp [h, ← hplace, Function.comp_def]
    · simp [h, ← hplace]

/-- Words laid out low byte first, seen at one byte. -/
theorem getElem?_flatMap_bytes (ws : List RawWord) (a : Nat) :
    (ws.flatMap fun w => [w.extractLsb' 0 8, w.extractLsb' 8 8])[a]? =
      ws[a / 2]?.map fun w => w.extractLsb' (8 * (a % 2)) 8 := by
  induction ws generalizing a with
  | nil => simp
  | cons w ws ih =>
    match a with
    | 0 => rfl
    | 1 => rfl
    | a + 2 =>
      rw [List.flatMap_cons]
      simp [ih]

/-- The bytes of the words of a frame line, before its status is set (R59 steps 1 and 2). -/
theorem getElem?_frameWords {l : FrameLine} (hwf : l.wf Config.tdec = true) (a : Nat) :
    ((l.px.foldl (fun ws x => ws.set (208 * x.row + x.col) x.value) (List.replicate 32448 l.fill)).flatMap
        fun w => [w.extractLsb' 0 8, w.extractLsb' 8 8])[a]? =
      if a < 64896 then some ((frameWord Config.tdec l (a / 2)).extractLsb' (8 * (a % 2)) 8) else none := by
  have hcol : ∀ x ∈ l.px, x.col < 208 := fun x hx => by
    have hx := List.all_eq_true.mp hwf x hx
    simp only [Px.wf, Bool.and_eq_true, decide_eq_true_eq] at hx
    exact hx.2
  rw [getElem?_flatMap_bytes, getElem?_foldl_set hcol, List.getElem?_replicate]
  simp only [show a / 2 < 32448 ↔ a < 64896 by omega]
  split_ifs
  · rfl
  · rfl

/-- Settles O53, byte by byte: the words give every byte, and bytes 20 and 21 are set after them. -/
theorem frameImageFollowsNotation : Obligations.FrameImageFollowsNotation := by
  intro l hwf words bytes withStatus
  have hbytes : ∀ a, bytes[a]? =
      if a < 64896 then some ((frameWord Config.tdec l (a / 2)).extractLsb' (8 * (a % 2)) 8) else none :=
    getElem?_frameWords hwf
  have hframe : Config.tdec.frameBytes = 64896 := rfl
  have hoffset : Config.tdec.statusOffset = 20 := rfl
  refine ⟨List.ext_getElem? fun a => ?_, frameImage_length _ _⟩
  rw [frameImage_getElem?, frameByte, hframe, hoffset]
  by_cases h20 : a = 20
  · subst h20
    cases l.b21 <;> simp [withStatus, List.getElem?_set', hbytes]
  · by_cases h21 : a = 21
    · subst h21
      cases l.b21 <;> simp [withStatus, List.getElem?_set', hbytes]
    · cases l.b21 <;> simp [withStatus, hbytes, h20, h21, Ne.symm h20, Ne.symm h21]

theorem lineMoves_of_lineFrame {p : Config.Params} {x : ProgramLine} {l : FrameLine} (h : lineFrame p x = some l) :
    lineMoves p x = frameMoves (frameImage p l) := by
  rw [lineMoves, h]

/-- FRAME filled with the image of a line decodes by the line's status. -/
theorem decode_of_read_image {m : Memory} {l : FrameLine}
    (h : ∀ a, a < 64896 → some (m.read a) = (frameImage Config.tdec l)[a]?) : decode m = decodeStatus l.status := by
  have h20 := (h 20 (by decide)).trans (frameImage_getElem? Config.tdec l 20)
  exact congrArg decodeStatus (Option.some.inj h20)

/-- Settles O23: the three moves are one operation on the filled FRAME, and byte 20 of the image chooses it. -/
theorem frameLineRunsItsOperation : Obligations.FrameLineRunsItsOperation := by
  intro s x l rest hidle hline hhost
  rw [lineMoves_of_lineFrame hline] at hhost
  have hlen := frameImage_length Config.tdec l
  have himage : ∀ a, a < 64896 →
      some ((s.frame.writeBytes 0 (frameImage Config.tdec l)).read a) = (frameImage Config.tdec l)[a]? :=
    fun a ha => read_writeBytes_whole s.frame _ a (ha.trans_eq hlen.symm)
  refine ⟨({ s with host := rest, frame := s.frame.writeBytes 0 (frameImage Config.tdec l) } : State).acceptStart, ?_,
    rfl, rfl, rfl, himage⟩
  rw [core_run_frameMoves hidle hhost hlen.le 0, core_run_zero, exec_eq_next, decode_of_read_image himage]
  rfl

/-- Settles O54: all but the `UNREC` clause is read off the definitions, and that clause is the table of mnemonics away
from the statuses 1 and 3. -/
theorem programLinesGiveTheirMoves : Obligations.ProgramLinesGiveTheirMoves := by
  refine ⟨fun _ => rfl, fun _ _ _ => rfl, fun _ _ _ => rfl, fun _ _ _ _ => rfl, fun status fill b21 px hwf => ?_, rfl, rfl,
    rfl, fun _ => rfl, rfl, fun _ _ => rfl⟩
  simp only [ProgramLine.wf, Bool.and_eq_true, bne_iff_ne] at hwf
  obtain ⟨⟨hcal, hnorm⟩, -⟩ := hwf
  have hcal : status ≠ 1 := hcal
  have hnorm : status ≠ 3 := hnorm
  exact ⟨hcal, hnorm, by rw [mnemonicOf_decodeStatus, if_neg hcal, if_neg hnorm]⟩

end Sys2Proof.Machine
end

section
/-! PROOFS. The operation UNREC (spec/40_classify.md R67): its eight rows share one meaning, that of every operation other
than CAL and NORM. -/

namespace Sys2Proof.Machine

/-- Each operation other than CAL and NORM raises UNRECOGNIZED, whatever its row and its free bits (R52, R67). -/
theorem exec_of_ne_cal_of_ne_norm {i : Instr} (hcal : i ≠ .cal) (hnorm : i ≠ .norm) (s : State) :
    exec i s = .next (s.raise .unrecognized) := by
  rw [exec_eq_next, afterOperation_unrec hcal hnorm]

/-- Settles O24: a row of UNREC is neither CAL nor NORM, and raising an outcome writes the four outputs alone. -/
theorem unrecChangesNothing : Obligations.UnrecChangesNothing := by
  intro s t
  have hrow : ∀ i : Instr, i ≠ .cal → i ≠ .norm → exec i s = .next t :=
    fun _ hcal hnorm => exec_of_ne_cal_of_ne_norm hcal hnorm s
  exact ⟨hrow .unrec00 nofun nofun, hrow .unrec02 nofun nofun, fun f => hrow (.unrec04 f) nofun nofun,
    fun f => hrow (.unrec08 f) nofun nofun, fun f => hrow (.unrec10 f) nofun nofun,
    fun f => hrow (.unrec20 f) nofun nofun, fun f => hrow (.unrec40 f) nofun nofun,
    fun f => hrow (.unrec80 f) nofun nofun⟩

end Sys2Proof.Machine
end

section
/-! PROOFS. The CAL operation (spec/41_calibrate.md R75 to R82). Two ideas carry this part. The threshold of R79, after its
two roundings, lies within 1/319300 of the exact one (`abs_deadThreshold_error`), and where the exact one is an integer it
is that integer (`units_deadThreshold_of_integer`); so the test is the comparison of integers of R81 (`isDead_eq_decide`),
from which the corner cases of R80 follow. Integers up to 2^53 add exactly in binary64 (`fadd_i2f`), so no order of
summation can be observed (R77). -/

namespace Sys2Proof.Machine

/-! ### The error of one rounding -/

/-- A quotient up to `2^53` does not round to infinity. -/
theorem roundUnits_lt_infBits_of_le {n d : Nat} (hd : 0 < d) (h : n ≤ 2 ^ 53 * (d * unitsPerOne)) :
    roundUnits n d < infBits := by
  have hplace : 2 ^ 53 * (d * unitsPerOne) < 2 ^ 53 * (d * 2 ^ 1075) := by
    unfold unitsPerOne
    gcongr <;> decide
  exact roundUnits_lt_infBits hd ((lastPlace_le hd (h.trans_lt hplace)).trans (by decide))

/-- A rounding is off by half a last place at most. -/
theorem two_mul_roundQuot_error_le {num : Int} {den : Nat} (hd : 0 < den)
    (hb : roundUnits num.natAbs den < infBits) :
    2 * (num - units (roundQuot num den) * den).natAbs ≤ den * 2 ^ lastPlace num.natAbs den := by
  obtain ⟨hlo, hhi, -⟩ := divHalfEven_spec num.natAbs (den * 2 ^ lastPlace num.natAbs den)
    (Nat.mul_pos hd (Nat.two_pow_pos _))
  have hmag : roundedMag num.natAbs den * den
      = divHalfEven num.natAbs (den * 2 ^ lastPlace num.natAbs den) * (den * 2 ^ lastPlace num.natAbs den) := by
    rw [roundedMag, roundedSignificand]; ring
  rw [units_roundQuot_eq_sign_mul hd hb, natAbs_sub_sign_mul num _ den (by rintro rfl; simp), ← Nat.cast_mul, hmag]
  omega

/-- A rounding is off by `2^-53` of the exact value at most, or else by the smallest subnormal. -/
theorem roundQuot_error_le {num : Int} {den : Nat} (hd : 0 < den) (hb : roundUnits num.natAbs den < infBits) :
    2 ^ 53 * |num - units (roundQuot num den) * den| ≤ |num| + 2 ^ 53 * den := by
  have herr := two_mul_roundQuot_error_le hd hb
  obtain ⟨-, hlow⟩ := lastPlace_spec num.natAbs den hd
  rw [Int.abs_eq_natAbs, Int.abs_eq_natAbs]
  by_cases hplace : lastPlace num.natAbs den = 0
  · rw [hplace, Nat.pow_zero, Nat.mul_one] at herr
    omega
  · have hlow := hlow hplace
    omega

/-- The error of a rounding, of a quotient that is `v / c`. -/
theorem roundQuot_error_le_of_mul_eq {num v c : Int} {den : Nat} (hd : 0 < den)
    (hb : roundUnits num.natAbs den < infBits) (hc : 0 < c) (h : c * num = v * den) :
    2 ^ 53 * |v - c * units (roundQuot num den)| ≤ |v| + 2 ^ 53 * c := by
  have hscale (x y : Int) (hxy : c * x = y * den) : c * |x| = |y| * den := by
    rw [← Nat.abs_cast den, ← abs_mul, ← hxy, abs_mul, abs_of_pos hc]
  have hnum := hscale num v h
  have herr := hscale (num - units (roundQuot num den) * den) (v - c * units (roundQuot num den))
    (by linear_combination h)
  refine le_of_mul_le_mul_right ?_ (Int.natCast_pos.mpr hd)
  linarith [mul_le_mul_of_nonneg_left (roundQuot_error_le hd hb) hc.le]

/-- Two multiples of one step, both within half a step of the same number and one of them nearer, are equal. -/
theorem eq_of_near_multiples {n m r : Int} {d step : Nat} (hm : (step : Int) ∣ m) (hr : (step : Int) ∣ r)
    (hrnear : 2 * (n - r * d).natAbs ≤ d * step) (hmnear : 2 * (n - m * d).natAbs < d * step) : r = m := by
  have hclose : |r * d - m * d| < (d * step : Nat) := by
    rw [Int.abs_eq_natAbs]
    omega
  rw [← sub_mul, abs_mul, Nat.abs_cast, Nat.cast_mul, mul_comm] at hclose
  exact sub_eq_zero.mp <| Int.eq_zero_of_abs_lt_dvd (dvd_sub hr hm)
    (lt_of_mul_lt_mul_left hclose (Int.natCast_nonneg d))

/-- A value on the places of the rounding, nearer than half a place, is the rounded one. -/
theorem units_roundQuot_of_near {num m : Int} {den : Nat} (hd : 0 < den) (hb : roundUnits num.natAbs den < infBits)
    (hplace : ((2 ^ lastPlace num.natAbs den : Nat) : Int) ∣ m)
    (hnear : 2 * (num - m * den).natAbs < den * 2 ^ lastPlace num.natAbs den) : units (roundQuot num den) = m := by
  refine eq_of_near_multiples hplace ?_ (two_mul_roundQuot_error_le hd hb) hnear
  rw [units_roundQuot_eq_sign_mul hd hb, roundedMag, Nat.cast_mul]
  exact ((Int.dvd_refl _).mul_left _).mul_left _

/-- A binary64 value is its own rounding. -/
theorem units_roundQuot_of_units_eq {num : Int} {den : Nat} {y : F64} (hd : 0 < den)
    (hb : roundUnits num.natAbs den < infBits) (hy : isFinite y = true) (h : units y * den = num) :
    units (roundQuot num den) = units y := by
  have hnear := ((roundingIsNearestTiesToEven num den hd hb).2 y hy).1
  rw [h, sub_self, Int.natAbs_zero, Nat.le_zero, Int.natAbs_eq_zero, sub_eq_zero] at hnear
  exact Int.eq_of_mul_eq_mul_right (by omega) (hnear.symm.trans h.symm)

@[simp] theorem roundQuot_zero (den : Nat) : roundQuot 0 den = 0#64 := by
  simp [roundQuot, roundUnits, lastPlace, divHalfEven]

/-! ### Sums (R77) -/

/-- Integers up to `2^53` add in binary64 as integers (R77). -/
theorem fadd_i2f {a b : Int} (ha : a.natAbs ≤ 2 ^ 53) (hb : b.natAbs ≤ 2 ^ 53) :
    fadd (i2f a) (i2f b) = i2f (a + b) := by
  obtain ⟨hfa, hua⟩ := i2f_exact ha
  obtain ⟨hfb, hub⟩ := i2f_exact hb
  rw [fadd, hfa, hfb, Bool.and_self, if_pos rfl, hua, hub, ← add_mul, i2f]

/-- Adding 16-bit integers one by one in binary64 gives the exact sum, while no partial sum can pass `2^53` (R77). -/
theorem foldl_fadd_i2f (l : List Int) (hl : ∀ v ∈ l, v.natAbs ≤ 2 ^ 15) (a : Int)
    (ha : a.natAbs + 2 ^ 15 * l.length ≤ 2 ^ 53) :
    l.foldl (fun acc v => fadd acc (i2f v)) (i2f a) = i2f (a + l.sum) := by
  induction l generalizing a with
  | nil => simp
  | cons v l ih =>
    obtain ⟨hv, hl⟩ := List.forall_mem_cons.mp hl
    rw [List.length_cons] at ha
    rw [List.foldl_cons, fadd_i2f (by omega) (by omega), ih hl (a + v) (by omega), List.sum_cons, add_assoc]

/-- The sum of a grid of 16-bit values (R77). -/
theorem gridSum_bounds {g : List Int} (hlen : g.length = 31930) (hg : ∀ v ∈ g, -32768 ≤ v ∧ v ≤ 32767) :
    -1046282240 ≤ gridSum g ∧ gridSum g ≤ 1046250310 := by
  have hlo := List.card_nsmul_le_sum g (-32768) fun v hv => (hg v hv).1
  have hhi := List.sum_le_card_nsmul g 32767 fun v hv => (hg v hv).2
  rw [hlen, nsmul_eq_mul] at hlo hhi
  rw [gridSum]
  omega

theorem gridSum_workingGrid_bounds (m : Memory) :
    -1046282240 ≤ gridSum (workingGrid Config.tdec m) ∧ gridSum (workingGrid Config.tdec m) ≤ 1046250310 :=
  gridSum_bounds (workingGrid_length _ m) fun _ => workingGrid_bounds

/-- Settles O28: every partial sum is an integer below `2^53`, in whatever order the pixels come. -/
theorem sumIsExactInAnyOrder : Obligations.SumIsExactInAnyOrder := by
  intro m
  obtain ⟨hlo, hhi⟩ := gridSum_workingGrid_bounds m
  refine ⟨hlo, hhi, (integersConvertExactly _ (by omega)).2, fun l hperm => ?_⟩
  have hl : ∀ v ∈ l, v.natAbs ≤ 2 ^ 15 := fun v hv => by
    obtain ⟨hvlo, hvhi⟩ := workingGrid_bounds (hperm.mem_iff.mp hv)
    omega
  have hlen : l.length = 31930 := hperm.length_eq.trans (workingGrid_length _ m)
  have hfold := foldl_fadd_i2f l hl 0 (by rw [hlen]; decide)
  rwa [zero_add, hperm.sum_eq, i2f, zero_mul, roundQuot_zero] at hfold

/-! ### The threshold (R79) -/

theorem unitsPerOne_ge : 2 ^ 100 ≤ unitsPerOne := by
  rw [unitsPerOne]
  gcongr <;> decide

theorem unitsPerOne_pos : 0 < unitsPerOne := Nat.lt_of_lt_of_le (by decide) unitsPerOne_ge

theorem unitsPerOne_cast_ge : (2 : Int) ^ 100 ≤ unitsPerOne := by exact_mod_cast unitsPerOne_ge

/-- A bound on an integer is a bound on its value in units. -/
theorem abs_mul_unitsPerOne_le {n b : Int} (h : |n| ≤ b) : |n * unitsPerOne| ≤ b * unitsPerOne := by
  rw [abs_mul, Nat.abs_cast]
  exact mul_le_mul_of_nonneg_right h (Int.natCast_nonneg _)

/-- The quotient of two integers is rounded once. -/
theorem fdiv_i2f {s : Int} {n : Nat} (hs : s.natAbs ≤ 2 ^ 53) (hpos : 0 < n) (hn : n ≤ 2 ^ 53) :
    fdiv (i2f s) (i2f n) = roundQuot (s * unitsPerOne * unitsPerOne) (n * unitsPerOne) := by
  obtain ⟨hfs, hus⟩ := i2f_exact hs
  obtain ⟨hfn, hun⟩ := i2f_exact (n := n) (by rwa [Int.natAbs_natCast])
  have hden : (0 : Int) < (n * unitsPerOne : Nat) :=
    Int.natCast_pos.mpr (Nat.mul_pos hpos unitsPerOne_pos)
  rw [← Nat.cast_mul] at hun
  rw [fdiv, hfs, hfn, hus, hun, Bool.and_self, Bool.true_and, if_pos (bne_iff_ne.mpr hden.ne'),
    Int.sign_eq_one_of_pos hden, mul_one, Int.natAbs_natCast]

/-- The divisor of the mean, in units, is positive. -/
theorem nPix_mul_unitsPerOne_pos : 0 < 31930 * unitsPerOne := Nat.mul_pos (by decide) unitsPerOne_pos

/-- The mean is one rounding of the sum over the number of pixels (R79). -/
theorem gridMean_eq_roundQuot {g : List Int} (hsum : |gridSum g| ≤ 2 ^ 30) :
    gridMean Config.tdec g = roundQuot (gridSum g * unitsPerOne * unitsPerOne) (31930 * unitsPerOne) := by
  rw [Int.abs_eq_natAbs] at hsum
  exact fdiv_i2f (n := 31930) (by omega) (by decide) (by decide)

/-- The quotient that the mean rounds is far from overflow (R80). -/
theorem roundUnits_gridMean_lt {g : List Int} (hsum : |gridSum g| ≤ 2 ^ 30) :
    roundUnits (gridSum g * unitsPerOne * unitsPerOne).natAbs (31930 * unitsPerOne) < infBits := by
  refine roundUnits_lt_infBits_of_le nPix_mul_unitsPerOne_pos ?_
  rw [Int.natAbs_mul, Int.natAbs_mul, Int.natAbs_natCast, ← Nat.mul_assoc, ← Nat.mul_assoc]
  rw [Int.abs_eq_natAbs] at hsum
  gcongr
  omega

theorem isFinite_gridMean {g : List Int} (hsum : |gridSum g| ≤ 2 ^ 30) : isFinite (gridMean Config.tdec g) = true := by
  rw [gridMean_eq_roundQuot hsum]
  exact (units_roundQuot _ _ nPix_mul_unitsPerOne_pos (roundUnits_gridMean_lt hsum)).1

/-- The mean lies within `2^-22 / 31930` of the exact one (R77, R79). -/
theorem gridMean_error_lt {g : List Int} (hsum : |gridSum g| ≤ 2 ^ 30) :
    2 ^ 22 * |gridSum g * unitsPerOne - 31930 * units (gridMean Config.tdec g)| < unitsPerOne := by
  have herr := roundQuot_error_le_of_mul_eq (v := gridSum g * unitsPerOne) (c := 31930) nPix_mul_unitsPerOne_pos
    (roundUnits_gridMean_lt hsum) (by decide) (by push_cast; ring)
  rw [← gridMean_eq_roundQuot hsum] at herr
  linarith [unitsPerOne_cast_ge, abs_mul_unitsPerOne_le hsum]

/-- The exact value of `K_DEAD` as a ratio (R6). -/
theorem units_kDead_mul : units Config.tdec.kDead * 2 ^ 54 = 5404319552844595 * unitsPerOne := by
  rw [unitsPerOne_cast]
  exact units_kDead

/-- The threshold is one rounding of the product of `K_DEAD` and the mean (R79). -/
theorem deadThreshold_eq_roundQuot {g : List Int} (hsum : |gridSum g| ≤ 2 ^ 30) :
    deadThreshold Config.tdec g
      = roundQuot (units Config.tdec.kDead * units (gridMean Config.tdec g)) unitsPerOne := by
  have hk : isFinite Config.tdec.kDead = true := by decide
  rw [deadThreshold, fmul, hk, isFinite_gridMean hsum, Bool.and_self, if_pos rfl]

/-- The mean is 16-bit in size (R80). -/
theorem abs_gridMean_le {g : List Int} (hsum : |gridSum g| ≤ 2 ^ 30) :
    |units (gridMean Config.tdec g)| ≤ 2 ^ 16 * unitsPerOne := by
  have hU := unitsPerOne_cast_ge
  obtain ⟨hsumlo, hsumhi⟩ := abs_le.mp (abs_mul_unitsPerOne_le hsum)
  obtain ⟨herrlo, herrhi⟩ := abs_le.mp (le_refl |gridSum g * unitsPerOne - 31930 * units (gridMean Config.tdec g)|)
  have herr := gridMean_error_lt hsum
  exact abs_le.mpr ⟨by linarith, by linarith⟩

/-- `K_DEAD` is below 1 (R6). -/
theorem abs_kDead_le : |units Config.tdec.kDead| ≤ unitsPerOne := by
  have hk := units_kDead_mul
  have hU := unitsPerOne_cast_ge
  exact abs_le.mpr ⟨by linarith, by linarith⟩

/-- The product of `K_DEAD` and a 16-bit value is 16-bit in size (R80). -/
theorem natAbs_kDead_mul_le {x : Int} (hx : |x| ≤ 2 ^ 16 * unitsPerOne) :
    (units Config.tdec.kDead * x).natAbs ≤ 2 ^ 16 * (unitsPerOne * unitsPerOne) := by
  have hK : (units Config.tdec.kDead).natAbs ≤ unitsPerOne := by
    rw [← Int.ofNat_le, Int.natCast_natAbs]
    exact abs_kDead_le
  have hx : x.natAbs ≤ 2 ^ 16 * unitsPerOne := by
    rw [Int.abs_eq_natAbs] at hx
    omega
  rw [Int.natAbs_mul, Nat.mul_left_comm (2 ^ 16)]
  exact Nat.mul_le_mul hK hx

/-- The product of `K_DEAD` and a 16-bit value does not round to infinity (R80). -/
theorem roundUnits_kDead_mul_lt {x : Int} (hx : |x| ≤ 2 ^ 16 * unitsPerOne) :
    roundUnits (units Config.tdec.kDead * x).natAbs unitsPerOne < infBits :=
  roundUnits_lt_infBits_of_le unitsPerOne_pos
    ((natAbs_kDead_mul_le hx).trans (Nat.mul_le_mul_right _ (by decide)))

/-- `fmul(K_DEAD, ·)` is off by `2^-53` of the exact product at most, or else by the smallest subnormal. -/
theorem kDead_mul_error_le {x : Int} (hx : |x| ≤ 2 ^ 16 * unitsPerOne) :
    2 ^ 53 * |5404319552844595 * x - 2 ^ 54 * units (roundQuot (units Config.tdec.kDead * x) unitsPerOne)|
      ≤ 5404319552844595 * |x| + 2 ^ 107 := by
  have herr := roundQuot_error_le_of_mul_eq (v := 5404319552844595 * x) (c := 2 ^ 54) unitsPerOne_pos
    (roundUnits_kDead_mul_lt hx) (by decide) (by linear_combination x * units_kDead_mul)
  rwa [abs_mul 5404319552844595 x] at herr

theorem isFinite_deadThreshold {g : List Int} (hsum : |gridSum g| ≤ 2 ^ 30) :
    isFinite (deadThreshold Config.tdec g) = true := by
  rw [deadThreshold_eq_roundQuot hsum]
  exact (units_roundQuot _ _ unitsPerOne_pos (roundUnits_kDead_mul_lt (abs_gridMean_le hsum))).1

/-- The threshold lies within `1 / 319300` of the exact one, `3 S / 319300` (R81): of its error, the two roundings and the
distance of `K_DEAD` to 0.3 each make a small part. -/
theorem abs_deadThreshold_error {g : List Int} (hsum : |gridSum g| ≤ 2 ^ 30) :
    |3 * (gridSum g * unitsPerOne) - 319300 * units (deadThreshold Config.tdec g)| < unitsPerOne := by
  have hU := unitsPerOne_cast_ge
  obtain ⟨hsumlo, hsumhi⟩ := abs_le.mp (abs_mul_unitsPerOne_le hsum)
  have hM := abs_gridMean_le hsum
  have hmean := gridMean_error_lt hsum
  have hthr := kDead_mul_error_le hM
  rw [← deadThreshold_eq_roundQuot hsum] at hthr
  generalize units (deadThreshold Config.tdec g) = T at *
  generalize units (gridMean Config.tdec g) = M at *
  obtain ⟨hmeanlo, hmeanhi⟩ := abs_le.mp (le_refl |gridSum g * unitsPerOne - 31930 * M|)
  obtain ⟨hthrlo, hthrhi⟩ := abs_le.mp (le_refl |5404319552844595 * M - 2 ^ 54 * T|)
  exact abs_lt.mpr ⟨by linarith, by linarith⟩

/-- Where the exact threshold is an integer, so is the mean, and `gridMean` is the mean (R81). -/
theorem units_gridMean_of_integer {g : List Int} {w : Int} (hsum : |gridSum g| ≤ 2 ^ 30)
    (hw : gridSum g = 319300 * w) : units (gridMean Config.tdec g) = 10 * w * unitsPerOne := by
  obtain ⟨hfin, hunits⟩ := i2f_exact (n := 10 * w) (by rw [Int.abs_eq_natAbs] at hsum; omega)
  rw [gridMean_eq_roundQuot hsum, ← hunits]
  refine units_roundQuot_of_units_eq nPix_mul_unitsPerOne_pos (roundUnits_gridMean_lt hsum) hfin ?_
  rw [hunits, hw]
  push_cast
  ring

/-- A quotient below `2^53` is rounded to places that divide 1. -/
theorem two_pow_lastPlace_dvd_unitsPerOne {n d : Nat} (hd : 0 < d) (h : n < 2 ^ 53 * (d * unitsPerOne)) :
    2 ^ lastPlace n d ∣ unitsPerOne := by
  unfold unitsPerOne at h ⊢
  exact pow_dvd_pow (m := lastPlace n d) (n := 1074) 2 (lastPlace_le hd h)

/-- The product `K_DEAD × 10 w` misses `3 w` by 2 parts in 54043195528445950 (R81). -/
theorem kDead_mul_ten_error (w : Int) :
    54043195528445950 * (units Config.tdec.kDead * (10 * w * unitsPerOne) - 3 * w * unitsPerOne * unitsPerOne).natAbs
      = 2 * (units Config.tdec.kDead * (10 * w * unitsPerOne)).natAbs := by
  have hratio : 54043195528445950 * (units Config.tdec.kDead * (10 * w * unitsPerOne)
      - 3 * w * unitsPerOne * unitsPerOne) = -2 * (units Config.tdec.kDead * (10 * w * unitsPerOne)) := by
    linear_combination 30 * w * unitsPerOne * units_kDead_mul
  have habs := congrArg Int.natAbs hratio
  rwa [Int.natAbs_mul, Int.natAbs_mul (-2)] at habs

/-- An error of 2 parts in 54043195528445950 is less than half of the last place of a 53-bit significand. -/
theorem two_mul_error_lt {err n place : Nat} (herr : 54043195528445950 * err = 2 * n) (hn : n < 2 ^ 53 * place) :
    2 * err < place := by
  linarith

/-- `fmul(K_DEAD, 10 w)` is `3 w`, although `K_DEAD` is not 0.3: the product is off by less than half of its last place
(R81). -/
theorem units_kDead_mul_ten {w : Int} (hw : |10 * w| ≤ 2 ^ 16) :
    units (roundQuot (units Config.tdec.kDead * (10 * w * unitsPerOne)) unitsPerOne) = 3 * w * unitsPerOne := by
  have hx := abs_mul_unitsPerOne_le hw
  have hsmall := (natAbs_kDead_mul_le hx).trans_lt
    (Nat.mul_lt_mul_of_pos_right (show 2 ^ 16 < 2 ^ 53 by decide) (Nat.mul_pos unitsPerOne_pos unitsPerOne_pos))
  refine units_roundQuot_of_near unitsPerOne_pos (roundUnits_kDead_mul_lt hx) ?_ ?_
  · exact (Int.natCast_dvd_natCast.mpr (two_pow_lastPlace_dvd_unitsPerOne unitsPerOne_pos hsmall)).mul_left _
  · exact two_mul_error_lt (kDead_mul_ten_error w) (lastPlace_spec _ _ unitsPerOne_pos).1

/-- Where the exact threshold is an integer, the threshold is that integer (R81). -/
theorem units_deadThreshold_of_integer {g : List Int} {w : Int} (hsum : |gridSum g| ≤ 2 ^ 30)
    (hw : gridSum g = 319300 * w) : units (deadThreshold Config.tdec g) = 3 * w * unitsPerOne := by
  obtain ⟨hlo, hhi⟩ := abs_le.mp hsum
  rw [deadThreshold_eq_roundQuot hsum, units_gridMean_of_integer hsum hw,
    units_kDead_mul_ten (abs_le.mpr ⟨by omega, by omega⟩)]

/-- The exact threshold is an integer only where 3 divides it (R81). -/
theorem exists_of_threshold_eq {v s : Int} (h : 319300 * v = 3 * s) : ∃ w, v = 3 * w ∧ s = 319300 * w :=
  ⟨s - 106433 * v, by linarith, by linarith⟩

/-- The dead test of R79 is the integer comparison of R81, for every grid with a sum of 31 bits. -/
theorem isDead_eq_decide {g : List Int} {v : Int} (hsum : |gridSum g| ≤ 2 ^ 30) (hv : v.natAbs ≤ 2 ^ 15) :
    isDead (deadThreshold Config.tdec g) v = decide (319300 * v < 3 * gridSum g) := by
  obtain ⟨hfin, hunits⟩ := i2f_exact (n := v) (by omega)
  have hpos : (0 : Int) < unitsPerOne := Int.natCast_pos.mpr unitsPerOne_pos
  have hthr := abs_lt.mp (abs_deadThreshold_error hsum)
  rw [isDead, flt, hfin, isFinite_deadThreshold hsum, Bool.and_self, if_pos rfl, hunits, decide_eq_decide]
  rcases Int.lt_trichotomy (319300 * v) (3 * gridSum g) with h | h | h
  · have hstep : (319300 * v + 1) * unitsPerOne ≤ 3 * gridSum g * unitsPerOne :=
      mul_le_mul_of_nonneg_right h hpos.le
    exact iff_of_true (by linarith) h
  · obtain ⟨w, rfl, hw⟩ := exists_of_threshold_eq h
    rw [units_deadThreshold_of_integer hsum hw]
    exact iff_of_false (lt_irrefl _) h.not_lt
  · have hstep : (3 * gridSum g + 1) * unitsPerOne ≤ 319300 * v * unitsPerOne :=
      mul_le_mul_of_nonneg_right h hpos.le
    exact iff_of_false (by linarith) h.asymm

/-! ### The corner cases and the mask of a frame (R80, R81) -/

theorem abs_gridSum_le {g : List Int} (hlen : g.length = 31930) (hg : ∀ v ∈ g, -32768 ≤ v ∧ v ≤ 32767) :
    |gridSum g| ≤ 2 ^ 30 := by
  obtain ⟨hlo, hhi⟩ := gridSum_bounds hlen hg
  exact abs_le.mpr ⟨by omega, by omega⟩

/-- The dead test on a pixel of a grid of 31930 16-bit values (R81). -/
theorem isDead_of_mem {g : List Int} (hlen : g.length = 31930) (hg : ∀ v ∈ g, -32768 ≤ v ∧ v ≤ 32767) {v : Int}
    (hv : v ∈ g) : isDead (deadThreshold Config.tdec g) v = decide (319300 * v < 3 * gridSum g) := by
  obtain ⟨hlo, hhi⟩ := hg v hv
  exact isDead_eq_decide (abs_gridSum_le hlen hg) (by omega)

/-- The threshold of a grid of zero sum is `+0.0` (R80). -/
theorem deadThreshold_of_gridSum_eq_zero {g : List Int} (h : gridSum g = 0) : deadThreshold Config.tdec g = 0#64 := by
  have hsum : |gridSum g| ≤ 2 ^ 30 := by rw [h]; decide
  have hmean : units (gridMean Config.tdec g) = 0 := by
    rw [units_gridMean_of_integer (w := 0) hsum h, mul_zero, zero_mul]
  rw [deadThreshold_eq_roundQuot hsum, hmean, mul_zero, roundQuot_zero]

/-- Settles O29: each corner case is a case of the comparison of integers. -/
theorem deadTestCornerCases : Obligations.DeadTestCornerCases := by
  intro g hlen hg
  refine ⟨fun v hv huniform b hb => ?_, fun hneg v hv hmean => ?_, fun hzero =>
    ⟨deadThreshold_of_gridSum_eq_zero hzero, fun v hv => ?_⟩⟩
  · obtain ⟨x, hx, rfl⟩ := List.mem_map.mp hb
    have hsum : gridSum g = 31930 * v := by
      rw [gridSum, List.eq_replicate_of_mem huniform, List.sum_replicate, hlen, nsmul_eq_mul]
      rfl
    rw [isDead_of_mem hlen hg hx, huniform x hx, hsum, decide_eq_false_iff_not]
    omega
  · rw [isDead_of_mem hlen hg hv, decide_eq_true_iff]
    omega
  · rw [isDead_of_mem hlen hg hv, hzero, decide_eq_decide]
    omega

/-- Settles O30: the test by linear index is `isDead_of_mem`, and 16 bits bound the pixel and the sum. -/
theorem deadTestIsIntegerTest : Obligations.DeadTestIsIntegerTest := by
  intro m i v hv
  have hmem := List.mem_of_getElem? hv
  obtain ⟨hlo, hhi⟩ := workingGrid_bounds hmem
  obtain ⟨hslo, hshi⟩ := gridSum_workingGrid_bounds m
  refine ⟨?_, by omega, by omega, by omega, by omega⟩
  rw [deadMask, List.getElem?_map, hv, Option.map_some,
    isDead_of_mem (workingGrid_length _ m) (fun _ => workingGrid_bounds) hmem]

/-! ### The operation (R75, R76, R82) -/

/-- A sum over a row-major grid is the sum of its rows. -/
theorem sum_range_mul_eq_sum_rows (f : Nat → Nat → Int) (rows cols : Nat) :
    ∑ i ∈ Finset.range (rows * cols), f (i / cols) (i % cols)
      = ∑ r ∈ Finset.range rows, ∑ c ∈ Finset.range cols, f r c := by
  induction rows with
  | zero => simp
  | succ rows ih =>
    rw [Nat.succ_mul, Finset.sum_range_add, ih, Finset.sum_range_succ]
    refine congrArg _ (Finset.sum_congr rfl fun c hc => ?_)
    have hc := Finset.mem_range.mp hc
    rw [Nat.mul_comm, Nat.mul_add_div (by omega), Nat.div_eq_of_lt hc, Nat.add_zero, Nat.mul_add_mod,
      Nat.mod_eq_of_lt hc]

/-- The sum of the working grid, by coordinate (R75). -/
theorem gridSum_workingGrid (m : Memory) : gridSum (workingGrid Config.tdec m)
    = ∑ r ∈ Finset.range 155, ∑ c ∈ Finset.range 206, rawPixel Config.tdec m r c :=
  sum_range_mul_eq_sum_rows (rawPixel Config.tdec m) 155 206

/-- A grid computed pixel by pixel from the working grid, by coordinate (R55). -/
theorem getElem?_map_workingGrid {α : Type} (f : Int → α) (m : Memory) {r c : Nat} (hr : r < 155) (hc : c < 206) :
    ((workingGrid Config.tdec m).map f)[206 * r + c]? = some (f (rawPixel Config.tdec m r c)) := by
  have hat : (workingGrid Config.tdec m)[206 * r + c]? = some (rawPixel Config.tdec m r c) :=
    workingGrid_at Config.tdec m r c hr hc
  rw [List.getElem?_map, hat, Option.map_some]

/-- The mask of a frame, by coordinate (R79). -/
theorem getElem?_deadMask_workingGrid (m : Memory) {r c : Nat} (hr : r < 155) (hc : c < 206) :
    (deadMask Config.tdec (workingGrid Config.tdec m))[206 * r + c]?
      = some (isDead (deadThreshold Config.tdec (workingGrid Config.tdec m)) (rawPixel Config.tdec m r c)) :=
  getElem?_map_workingGrid (isDead (deadThreshold Config.tdec (workingGrid Config.tdec m))) m hr hc

/-- Settles O26: CAL writes the tuple and the ports alone. -/
theorem calFrame : Obligations.CalFrame := by
  intro s t ht
  rw [exec_cal, Host.Outcome.next.injEq, calOperation_eq] at ht
  subst ht
  exact ⟨fun _ => rfl, rfl, rfl, rfl, fun hdone => ⟨if_pos hdone, hdone.symm⟩⟩

/-- Settles O27: CAL stores the converted grid of its own FRAME, and pixels convert exactly. -/
theorem captureReplacesStore : Obligations.CaptureReplacesStore := by
  intro s s' hframe
  have hlen : ((workingGrid Config.tdec s.frame).map i2f).length = 31930 :=
    (List.length_map _).trans (workingGrid_length _ _)
  refine ⟨_, _, _, exec_cal s, exec_cal s', calOperation_cal _ s, by rw [calOperation_cal, hframe],
    calOperation_calValid _ s, hlen, fun r c hr hc => ?_⟩
  obtain ⟨hlo, hhi⟩ := rawPixel_bounds s.frame r c
  exact ⟨_, getElem?_map_workingGrid i2f s.frame hr hc, integersConvertExactly _ (by omega)⟩

/-- Settles O31: the first frame finds `DP_DONE = 0` and sets it, so the second one leaves the mask alone. -/
theorem laterCalibrationsKeepMask : Obligations.LaterCalibrationsKeepMask := by
  intro s m0 m1 hdone h0 h1
  rw [runFrames_cons, runFrames_cons, runFrames_nil, h0, h1]
  exact ⟨_, rfl, by simp, by simp [hdone], by simp⟩

/-- Settles O25: the fields CAL writes, and the two stores read by coordinate. -/
theorem calCompletes : Obligations.CalCompletes := by
  intro s
  refine ⟨_, exec_cal s, calOperation_calValid _ s, calOperation_dpDone _ s, rfl, rfl, rfl, rfl, fun r c hr hc => ?_,
    fun hdone => by simp [hdone], fun hdone => ?_⟩
  · rw [State.calAt, calOperation_cal]
    exact getElem?_map_workingGrid i2f s.frame hr hc
  · intro S mean thr r c hr hc
    have hthr : deadThreshold Config.tdec (workingGrid Config.tdec s.frame) = thr := by
      rw [deadThreshold, gridMean, gridSum_workingGrid]
      rfl
    rw [State.deadBit, calOperation_dead, hdone, if_neg Bool.false_ne_true, Option.bind_some]
    exact (getElem?_deadMask_workingGrid s.frame hr hc).trans (by rw [hthr, isDead])

end Sys2Proof.Machine
end

section
/-! PROOFS. The NORM operation (spec/42_decode.md R90 to R97). Two ideas carry this part. The difference of two pixels
is exact (`fsub_i2f`), so an element of the map is a function of the integer difference (`celsius_i2f`). Rounding is
monotone (`units_roundQuot_mono`), so the product and the transform are, and what R95 says of all differences follows
from four of them: the two extreme ones, and the two neighbours between which the transform changes its sign. -/

namespace Sys2Proof.Machine

/-! ### The difference (R92, R93) -/

/-- Integers up to `2^53` subtract in binary64 as integers. -/
theorem fsub_i2f {a b : Int} (ha : a.natAbs ≤ 2 ^ 53) (hb : b.natAbs ≤ 2 ^ 53) :
    fsub (i2f a) (i2f b) = i2f (a - b) := by
  obtain ⟨hfa, hua⟩ := i2f_exact ha
  obtain ⟨hfb, hub⟩ := i2f_exact hb
  rw [fsub, hfa, hfb, Bool.and_self, if_pos rfl, hua, hub, ← sub_mul, i2f]

/-- Settles O35: the difference of two 16-bit integers is an integer of 17 bits and a sign, which converts exactly. -/
theorem differenceIsExact : Obligations.DifferenceIsExact := by
  intro p c hp hp' hc hc'
  rw [fsub_i2f (by omega) (by omega)]
  refine ⟨rfl, (integersConvertExactly (p - c) (by omega)).2, by omega, by omega, ?_⟩
  rintro rfl
  rw [sub_self, i2f, zero_mul, roundQuot_zero]

/-- On converted pixels an element of the map is the transform of their difference (R94). -/
theorem celsius_i2f (p : Config.Params) {a b : Int} (ha : a.natAbs ≤ 2 ^ 53) (hb : b.natAbs ≤ 2 ^ 53) :
    celsius p (i2f a) (i2f b) = celsiusOfDiff p (a - b) := by
  rw [celsius, fsub_i2f ha hb, celsiusOfDiff]

/-! ### What NORM leaves (R90, R91, R96) -/

/-- An element of the map by coordinate, from the pixel and the calibration element there (R96). -/
theorem mapAt_normOperation {s : State} {l : List F64} {r c : Nat} {x : F64} (hvalid : s.calValid = true)
    (hcal : s.cal = some l) (hlen : l.length = 31930) (hr : r < 155) (hc : c < 206) (hx : l[206 * r + c]? = some x) :
    (normOperation Config.tdec s).mapAt r c
      = some (celsius Config.tdec (i2f (rawPixel Config.tdec s.frame r c)) x) := by
  rw [normOperation, if_pos hvalid, State.mapAt, State.finish_tmap, Option.bind_some]
  refine tempMap_getElem? Config.tdec s _ _ x (workingGrid_at Config.tdec s.frame r c hr hc) ?_
  rw [calElems_of_cal Config.tdec s l hcal hlen]
  exact hx

/-- Settles O32: NORM ends with the whole map and touches the outputs alone; the elements are `mapAt_normOperation`. -/
theorem normCompletes : Obligations.NormCompletes := by
  intro s hvalid
  refine ⟨_, exec_norm s, ?_, ?_, ?_, ?_, ⟨tempMap Config.tdec s, ?_, tempMap_length _ s⟩,
    fun l hcal hlen r c hr hc x hx => mapAt_normOperation hvalid hcal hlen hr hc hx⟩
  all_goals simp [normOperation, hvalid, State.tuple]

/-- Settles O33: the check comes before everything else. -/
theorem normWithoutCalibration : Obligations.NormWithoutCalibration := by
  intro s hvalid
  simp [exec_norm, normOperation_eq, hvalid]

/-- Settles O38: both elements are the same function of the pixel and the calibration element at the coordinate. -/
theorem lanesAreIndependent : Obligations.LanesAreIndependent := by
  intro s s' t t' l l' r c hr hc hvalid hvalid' hcal hcal' hlen hlen' hlane hpixel ht ht'
  rw [exec_norm, Host.Outcome.next.injEq] at ht ht'
  have hx : l[206 * r + c]? = some (l[206 * r + c]'(by omega)) := List.getElem?_eq_getElem _
  rw [← ht, ← ht', mapAt_normOperation hvalid hcal hlen hr hc hx,
    mapAt_normOperation hvalid' hcal' hlen' hr hc (hlane.symm.trans hx), hpixel]

/-! ### Rounding as a function of the quotient -/

/-- A common factor does not change what the quotient rounds to. -/
theorem roundUnits_mul_right (n d : Nat) {k : Nat} (hk : 0 < k) : roundUnits (n * k) (d * k) = roundUnits n d := by
  have hplace : lastPlace (n * k) (d * k) = lastPlace n d := by rw [lastPlace, Nat.mul_div_mul_right _ _ hk, lastPlace]
  have heven (e : Nat) : divHalfEven (n * k) (e * k) = divHalfEven n e := by
    simp only [divHalfEven, Nat.mul_div_mul_right _ _ hk, Nat.mul_mod_mul_right, ← Nat.mul_assoc,
      Nat.mul_lt_mul_right hk]
  rw [roundUnits, hplace, Nat.mul_right_comm, heven, roundUnits]

/-- `RN` is a function of the quotient: a common positive factor may be cancelled. -/
theorem roundQuot_mul_right (num : Int) (den : Nat) {k : Nat} (hk : 0 < k) :
    roundQuot (num * k) (den * k) = roundQuot num den := by
  have hsign : num * k < 0 ↔ num < 0 :=
    lt_iff_lt_of_le_iff_le (mul_nonneg_iff_of_pos_right (Int.natCast_pos.mpr hk))
  rw [roundQuot, Int.natAbs_mul, Int.natAbs_natCast, roundUnits_mul_right _ _ hk, if_congr hsign rfl rfl, roundQuot]

/-- `RN` is monotone: the smaller of two quotients is not nearer to the value above than the larger one is. -/
theorem units_roundQuot_mono {a b : Int} {den : Nat} (hd : 0 < den) (ha : roundUnits a.natAbs den < infBits)
    (hb : roundUnits b.natAbs den < infBits) (hab : a ≤ b) : units (roundQuot a den) ≤ units (roundQuot b den) := by
  obtain ⟨hfa, hna⟩ := roundingIsNearestTiesToEven a den hd ha
  obtain ⟨hfb, hnb⟩ := roundingIsNearestTiesToEven b den hd hb
  by_contra! hlt
  have hstep : units (roundQuot b den) * den < units (roundQuot a den) * den :=
    mul_lt_mul_of_pos_right hlt (Int.natCast_pos.mpr hd)
  have hnear := (hna _ hfb).1
  have hnear' := (hnb _ hfa).1
  obtain rfl : a = b := by omega
  exact lt_irrefl _ hlt

/-! ### The product and the transform (R94, R95) -/

/-- The product of a difference and `K_GAIN` is one rounding of the exact product (R94). -/
theorem fmul_kGain {d : Int} (hd : d.natAbs ≤ 2 ^ 53) :
    fmul (i2f d) Config.tdec.kGain = roundQuot (d * units Config.tdec.kGain) 1 := by
  obtain ⟨hfd, hud⟩ := i2f_exact hd
  have hk : isFinite Config.tdec.kGain = true := by decide
  rw [fmul, hfd, hk, Bool.and_self, if_pos rfl, hud, mul_right_comm, ← roundQuot_mul_right _ 1 unitsPerOne_pos,
    Nat.one_mul]

/-- The product in the form of R94. -/
theorem fmul_kGain_eq_roundQuot {d : Int} (hd : d.natAbs ≤ 2 ^ 53) :
    fmul (i2f d) Config.tdec.kGain = roundQuot (d * 644915466639455 * 2 ^ 1074) (2 ^ 55) := by
  have hnum : d * 644915466639455 * 2 ^ 1074 = d * units Config.tdec.kGain * (2 ^ 55 : Nat) := by
    rw [mul_assoc, ← units_kGain, ← mul_assoc]
    rfl
  rw [fmul_kGain hd, hnum, ← roundQuot_mul_right _ 1 (Nat.two_pow_pos 55), Nat.one_mul]

/-- The exact product of a difference and `K_GAIN` does not round to infinity. -/
theorem roundUnits_mul_kGain_lt {d : Int} (hd : d.natAbs ≤ 2 ^ 53) :
    roundUnits (d * units Config.tdec.kGain).natAbs 1 < infBits := by
  have hk : (units Config.tdec.kGain).natAbs ≤ unitsPerOne := by decide +kernel
  refine roundUnits_lt_infBits_of_le Nat.one_pos ?_
  rw [Int.natAbs_mul, Nat.one_mul]
  exact Nat.mul_le_mul hd hk

theorem isFinite_fmul_kGain {d : Int} (hd : d.natAbs ≤ 2 ^ 53) :
    isFinite (fmul (i2f d) Config.tdec.kGain) = true := by
  rw [fmul_kGain hd]
  exact (units_roundQuot _ _ Nat.one_pos (roundUnits_mul_kGain_lt hd)).1

/-- The product is non-decreasing in the difference (R95). -/
theorem units_fmul_kGain_mono {d e : Int} (hd : d.natAbs ≤ 2 ^ 53) (he : e.natAbs ≤ 2 ^ 53) (hde : d ≤ e) :
    units (fmul (i2f d) Config.tdec.kGain) ≤ units (fmul (i2f e) Config.tdec.kGain) := by
  have hk : 0 ≤ units Config.tdec.kGain := by decide +kernel
  rw [fmul_kGain hd, fmul_kGain he]
  exact units_roundQuot_mono Nat.one_pos (roundUnits_mul_kGain_lt hd) (roundUnits_mul_kGain_lt he)
    (mul_le_mul_of_nonneg_right hde hk)

/-- The product stays between its extreme values (R95). -/
theorem units_fmul_kGain_bounds {d : Int} (hd : -65535 ≤ d) (hd' : d ≤ 65535) :
    units (fmul (i2f (-65535)) Config.tdec.kGain) ≤ units (fmul (i2f d) Config.tdec.kGain) ∧
      units (fmul (i2f d) Config.tdec.kGain) ≤ units (fmul (i2f 65535) Config.tdec.kGain) :=
  ⟨units_fmul_kGain_mono (by decide) (by omega) hd, units_fmul_kGain_mono (by omega) (by decide) hd'⟩

/-- The transform is one rounding of the rounded product and 42 (R94). -/
theorem celsiusOfDiff_eq_roundQuot {d : Int} (hd : d.natAbs ≤ 2 ^ 53) :
    celsiusOfDiff Config.tdec d = roundQuot (units (fmul (i2f d) Config.tdec.kGain) + 42 * 2 ^ 1074) 1 := by
  have hk : isFinite Config.tdec.kOffset = true := by decide
  rw [celsiusOfDiff, fadd, isFinite_fmul_kGain hd, hk, Bool.and_self, if_pos rfl, units_kOffset]

/-- The sum of the product and 42 does not round to infinity: the extreme products are below `2^11` (R95). -/
theorem roundUnits_fmul_kGain_add_lt {d : Int} (hd : -65535 ≤ d) (hd' : d ≤ 65535) :
    roundUnits (units (fmul (i2f d) Config.tdec.kGain) + 42 * 2 ^ 1074).natAbs 1 < infBits := by
  have hmin : -(2 ^ 11 * unitsPerOne : Int) ≤ units (fmul (i2f (-65535)) Config.tdec.kGain) := by decide +kernel
  have hmax : units (fmul (i2f 65535) Config.tdec.kGain) ≤ 2 ^ 11 * unitsPerOne := by decide +kernel
  obtain ⟨hlo, hhi⟩ := units_fmul_kGain_bounds hd hd'
  rw [← unitsPerOne_cast]
  exact roundUnits_lt_infBits_of_le Nat.one_pos (by omega)

/-- The transform is non-decreasing in the difference (R95). -/
theorem units_celsiusOfDiff_mono {d e : Int} (hd : -65535 ≤ d) (hde : d ≤ e) (he : e ≤ 65535) :
    units (celsiusOfDiff Config.tdec d) ≤ units (celsiusOfDiff Config.tdec e) := by
  rw [celsiusOfDiff_eq_roundQuot (by omega), celsiusOfDiff_eq_roundQuot (by omega)]
  exact units_roundQuot_mono Nat.one_pos (roundUnits_fmul_kGain_add_lt hd (hde.trans he))
    (roundUnits_fmul_kGain_add_lt (hd.trans hde) he)
    (add_le_add_left (units_fmul_kGain_mono (by omega) (by omega) hde) _)

theorem isFinite_celsiusOfDiff {d : Int} (hd : -65535 ≤ d) (hd' : d ≤ 65535) :
    isFinite (celsiusOfDiff Config.tdec d) = true := by
  rw [celsiusOfDiff_eq_roundQuot (by omega)]
  exact (units_roundQuot _ _ Nat.one_pos (roundUnits_fmul_kGain_add_lt hd hd')).1

/-- The transform changes its sign between −2347 and −2346, where it is far from zero already (R95). -/
theorem two_pow_le_abs_units_celsiusOfDiff {d : Int} (hd : -65535 ≤ d) (hd' : d ≤ 65535) :
    2 ^ 52 ≤ |units (celsiusOfDiff Config.tdec d)| := by
  have hneg : units (celsiusOfDiff Config.tdec (-2347)) ≤ -2 ^ 52 := by decide +kernel
  have hpos : 2 ^ 52 ≤ units (celsiusOfDiff Config.tdec (-2346)) := by decide +kernel
  rcases lt_or_ge d (-2346) with h | h
  · have hmono := units_celsiusOfDiff_mono hd (show d ≤ -2347 by omega) (by decide)
    exact le_abs.mpr (.inr (by omega))
  · exact le_abs.mpr (.inl (hpos.trans (units_celsiusOfDiff_mono (by decide) h hd')))

/-- Zero and the subnormal values lie below the smallest normal one, `2^52` units. -/
theorem abs_units_lt_of_expField_eq_zero {x : F64} (h : expField x = 0) : |units x| < 2 ^ 52 := by
  have hfrac : fracField x < 2 ^ 52 := Nat.mod_lt _ (Nat.two_pow_pos 52)
  have hmag : magUnits x = fracField x := by rw [magUnits, if_pos h]
  rcases units_eq_or x with hx | hx <;> rw [hx, hmag, abs_lt] <;> omega

/-- Settles O37: the ranges come from monotonicity, and the table's rows are evaluated. -/
theorem transformRangeAndTable : Obligations.TransformRangeAndTable := by
  refine ⟨fun d hd hd' => ?_, fun d e hd hde he => units_celsiusOfDiff_mono hd hde he, by decide +kernel⟩
  obtain ⟨hlo, hhi⟩ := units_fmul_kGain_bounds hd hd'
  have hfar := two_pow_le_abs_units_celsiusOfDiff hd hd'
  refine ⟨hlo, hhi, isFinite_celsiusOfDiff hd hd', fun hzero => ?_, fun hzero => ?_⟩
  · exact (abs_units_lt_of_expField_eq_zero hzero).not_ge hfar
  · rw [hzero] at hfar
    exact absurd hfar (by decide)

/-! ### A CAL frame and then a NORM frame (R94) -/

/-- Settles O36: CAL stores the converted pixels of its frame, so NORM transforms the difference of the two pixels. -/
theorem calThenNormGivesTransform : Obligations.CalThenNormGivesTransform := by
  intro s mc mn hmc hmn
  rw [runFrames_cons, runFrames_cons, runFrames_nil, hmc, hmn, afterOperation_cal]
  refine ⟨_, rfl, by simp [afterOperation, normOperation], fun r c hr hc => ?_⟩
  obtain ⟨hclo, hchi⟩ := rawPixel_bounds mc r c
  obtain ⟨hnlo, hnhi⟩ := rawPixel_bounds mn r c
  have hlen : ((workingGrid Config.tdec mc).map i2f).length = 31930 :=
    (List.length_map _).trans (workingGrid_length _ _)
  have hmap := mapAt_normOperation (s := (calOperation Config.tdec (s.present mc)).present mn)
    (by simp) (by simp) hlen hr hc (getElem?_map_workingGrid i2f mc hr hc)
  rw [State.present_frame, celsius_i2f _ (by omega) (by omega), celsiusOfDiff_eq_roundQuot (by omega),
    fmul_kGain_eq_roundQuot (by omega)] at hmap
  exact hmap

end Sys2Proof.Machine
end

section
/-! PROOFS. The outcomes (spec/60_exceptions.md). One idea carries this part: NO_CALIBRATION is the outcome of NORM with
`CAL_VALID = 0` and of nothing else (`outcome_afterOperation_eq_noCalibration_iff`), and no operation clears `CAL_VALID`. -/

namespace Sys2Proof.Machine

/-! ### The table of outcomes (R115) -/

theorem decode_eq_cal_iff {m : Memory} : decode m = .cal ↔ statusOf m = 1 :=
  decodeStatus_eq_iff

theorem decode_eq_norm_iff {m : Memory} : decode m = .norm ↔ statusOf m = 3 :=
  decodeStatus_eq_iff

theorem afterOperation_norm (s : State) : afterOperation .norm s = normOperation Config.tdec s := rfl

/-- Settles O40: the status byte chooses CAL, NORM or UNREC, and `CAL_VALID` chooses between the two ends of NORM. -/
theorem outcomeOfEveryOperation : Obligations.OutcomeOfEveryOperation := by
  refine ⟨⟨rfl, rfl, rfl, rfl⟩, fun s => ?_⟩
  obtain ⟨hbusy, hdone, -⟩ := afterOperation_ends (decode s.frame) s
  refine ⟨_, exec_eq_next _ s, hdone, hbusy, fun hcal => ?_, fun hnorm hvalid => ?_, fun hnorm hvalid => ?_,
    fun hcal hnorm => ?_⟩
  · rw [decode_eq_cal_iff.mpr hcal, afterOperation_cal]
    exact ⟨rfl, rfl, fun hmask => by simp [hmask]⟩
  · rw [decode_eq_norm_iff.mpr hnorm, afterOperation_norm]
    simp [normOperation, hvalid, State.tuple]
  · rw [decode_eq_norm_iff.mpr hnorm, afterOperation_norm]
    simp [normOperation, hvalid, State.tuple]
  · rw [afterOperation_unrec (mt decode_eq_cal_iff.mp hcal) (mt decode_eq_norm_iff.mp hnorm)]
    exact ⟨rfl, rfl, rfl⟩

/-! ### NO_CALIBRATION (R116) -/

/-- NO_CALIBRATION is the outcome of NORM with `CAL_VALID = 0` and of nothing else (R91, R115). -/
theorem outcome_afterOperation_eq_noCalibration_iff (i : Instr) (s : State) :
    (afterOperation i s).outcome = some .noCalibration ↔ i = .norm ∧ s.calValid = false := by
  obtain ⟨hi, h⟩ | ⟨hi, h⟩ | ⟨-, hi, h⟩ := afterOperation_cases i s <;> rw [h]
  · simp [hi, calOperation]
  · simp [hi, normOperation_eq]
  · simp [hi]

/-- Settles O41: from the first frame on, every frame leaves `CAL_VALID = 1` and another outcome than NO_CALIBRATION. -/
theorem noCalibrationOnlyBeforeFirstCal : Obligations.NoCalibrationOnlyBeforeFirstCal := by
  intro s m ms hs
  have hframe : ∀ (u : State) (x : Memory), u.calValid = true →
      (afterOperation (decode x) (u.present x)).calValid = true ∧
        (afterOperation (decode x) (u.present x)).outcome ≠ some .noCalibration := fun u x hu =>
    ⟨afterOperation_calValid_of_true _ hu, by simp [outcome_afterOperation_eq_noCalibration_iff, hu]⟩
  obtain ⟨t, ht, -, houtcome⟩ := runFrames_preserves (fun t => t.calValid = true ∧ t.outcome ≠ some .noCalibration) ms
    (fun u x _ hu => hframe u x hu.1) (hframe s m hs)
  exact ⟨t, (runFrames_cons s m ms).trans ht, houtcome⟩

end Sys2Proof.Machine
end

section
/-! PROOFS. Reset (spec/70_reset_and_hazards.md R135 to R138). One idea carries this part: STATUS and `tmap_valid` are views,
so they read 0 wherever the flags are cleared and no outcome stands, and the reset event, which leaves exactly that, is one
move of the host with no guard. -/

namespace Sys2Proof.Machine

/-! ### The views where the flags are cleared -/

/-- STATUS is 00 where both flags are cleared (R14). -/
theorem status_eq_zero {s : State} (hcal : s.calValid = false) (hmask : s.dpDone = false) : s.status = 0b00#2 := by
  rw [State.status, hcal, hmask]
  rfl

/-- Without an outcome there is no valid map (R43). -/
theorem tmapValid_of_outcome_none {s : State} (ho : s.outcome = none) : s.tmapValid = false := by
  simp [tmapValid_eq_decide, ho]

/-! ### The state right after reset, and the reset event -/

/-- Settles O43: the fields are read off, and the two views follow from them. -/
theorem resetValues : Obligations.ResetValues :=
  ⟨rfl, rfl, rfl, rfl, status_eq_zero rfl rfl, rfl, rfl, rfl, rfl, tmapValid_of_outcome_none rfl, rfl⟩

/-- `rst` is taken whether or not an operation is in progress (R135, R138). -/
theorem step_rst {s : State} {rest : List HostMove} (hhost : s.host = .rst :: rest) :
    step s = .next ({ s with host := rest } : State).resetEvent := step_of_host_cons hhost

/-- Settles O44: the step is the reset event, and its fields and views are those of R136 over the FRAME of before. -/
theorem resetEventAtAnyTime : Obligations.ResetEventAtAnyTime := fun _ _ hhost =>
  ⟨_, step_rst hhost, rfl, rfl, rfl, rfl, status_eq_zero rfl rfl, rfl, rfl, rfl,
    tmapValid_of_outcome_none rfl, rfl, rfl, rfl⟩

end Sys2Proof.Machine
end
